-- ==== Sys2Proof/Word.lean ====
section
/-! DEFINITION. The words of the machine: 00_scope.md rules R5 and R6. A Word is unsigned and its arithmetic wraps
modulo 2^32, which is what `BitVec 32` gives. -/

namespace Sys2Proof

/-- A Word: register contents, memory cells, addresses, instruction words (R6, R10, R30). -/
abbrev Word := BitVec 32

/-- A byte of an instruction word or of a device stream (R5, R6). -/
abbrev Byte := BitVec 8

end Sys2Proof
end

