-- ==== Sys2Proof/Config.lean ====
section
/-! DEFINITION. The implementation parameters of 00_scope.md rule R4 as fields of a configuration. `WORD_BITS` is the width of
`Word`, `NUM_REGS` and `IP` are fixed. `REGISTRY`, whose guards and behaviours speak of the state, joins them in
`Machine.Configuration`; the reference values are `Machine.reference` and `Machine.Configuration.reference`. -/

namespace Sys2Proof

/-- `NUM_REGS`: fixed (R4, R10). -/
abbrev Config.numRegs : Nat := 8

/-- The bound on the payload's length, so that its count fits two bytes (R4, R152). -/
def Config.maxPayloadWords : Nat := 65535

/-- The parameters of R4 other than the registry. -/
structure Params where
  /-- `MEM_WORDS`: how many words memory has -/
  memWords : Nat
  /-- `USER_BASE`: the first address of the user region -/
  userBase : Nat
  /-- `USER_LIMIT`: one past the last address of the user region -/
  userLimit : Nat
  /-- `KERNEL_WORDS`: the size of the privileged region, the bound on the boot image -/
  kernelWords : Nat
  /-- `TIMER_THRESHOLD` (D24, log 24) -/
  timerThreshold : Word
  /-- `TIMER_FIRES(counter, threshold)`, asked after the increment (D10, log 10) -/
  timerFires : Word → Word → Bool
  /-- `BOOT_IMAGE`: the words reset copies to address 0 upward -/
  bootImage : List Word
  /-- `PAYLOAD`: the words reset frames into the input -/
  payload : List Word

/-- The constraints R4 puts on the sizes; the privileged region is `[0, USER_BASE)`. -/
abbrev Params.valid (p : Params) : Prop :=
  p.userBase ≤ p.userLimit ∧ p.userLimit ≤ p.memWords ∧ p.memWords ≤ 2 ^ 32 ∧ p.kernelWords = p.userBase

end Sys2Proof
end

