-- ==== Sys2Proof/Syntax.lean ====
section
/-! DEFINITION. The instructions and the shape of the registry's entries: 30_encoding.md rules R45 to R52,
40_step_cycle.md rules R60, R61 and R64. Every instruction carries exactly three arguments, the unused ones too, since decode
keeps them as they were fetched (R59). -/

namespace Sys2Proof

/-- A register of the file, `x[0]` to `x[7]` (10_state.md R10). -/
abbrev Reg := Fin Config.numRegs

/-- Register 7 is the instruction pointer (10_state.md R11; `IP` of 00_scope.md R4). -/
abbrev ipReg : Reg := 7

/-- An argument byte, read the same way in every instruction (R47). -/
inductive Arg where
  /-- bytes 0 to 7: register `r` -/
  | reg (r : Reg)
  /-- bytes 8 to 127, here byte `n + 8`: a selector that names no register -/
  | invalid (n : Fin 120)
  /-- bytes 128 to 255: the immediate of value `v`, 0 to 127 -/
  | imm (v : BitVec 7)
deriving DecidableEq, Repr

/-- The byte is a register selector in 0 to 7. -/
def Arg.isReg : Arg → Bool
  | .reg _ => true
  | .invalid _ => false
  | .imm _ => false

/-- The byte is an immediate. -/
def Arg.isImm : Arg → Bool
  | .reg _ => false
  | .invalid _ => false
  | .imm _ => true

/-- The decoded instructions, one constructor a row of the opcode map (R52), operands in the order of the row and
unused arguments named `u`. -/
inductive Instr where
  | halt (u0 u1 u2 : Arg)
  | unreachable (u0 u1 u2 : Arg)
  | read (rd u1 u2 : Arg)
  | write (src u1 u2 : Arg)
  | move (rd src u2 : Arg)
  | loadLiteral (rd lit u2 : Arg)
  | cmove (rd src cond : Arg)
  | add (rd a b : Arg)
  | sub (rd a b : Arg)
  | mul (rd a b : Arg)
  | div (rd a b : Arg)
  | and (rd a b : Arg)
  | or (rd a b : Arg)
  | xor (rd a b : Arg)
  | not (rd a u2 : Arg)
  | shl (rd a b : Arg)
  | shr (rd a b : Arg)
  | load (rd addr u2 : Arg)
  | store (value addr u2 : Arg)
  | configureTraps (u0 u1 u2 : Arg)
  | enterUserMode (u0 u1 u2 : Arg)
  | syscall (num u1 u2 : Arg)
deriving DecidableEq, Repr

/-- The names of the reference registry's instruction definitions (R52), which stand for their base behaviours. -/
inductive Mnemonic where
  | halt | unreachable | read | write | move | loadLiteral | cmove | add | sub | mul | div | and | or | xor | not
  | shl | shr | load | store | configureTraps | enterUserMode | syscall
deriving DecidableEq, Repr

/-- What a validator asks of the byte in one argument position (R49). -/
inductive ArgKind where
  | reg | regimm | imm | unused
deriving DecidableEq, Repr

/-- A validator: a predicate on the three argument bytes (R49). -/
abbrev Validator := Arg → Arg → Arg → Bool

/-- The three guards of the privilege subsystem (40_step_cycle.md R63). -/
inductive GuardName where
  /-- the privileged-instruction gate, 60_exceptions.md R129 -/
  | privileged
  /-- the memory-bounds gate on an address operand, 60_exceptions.md R130 -/
  | address
  /-- the memory-bounds gate on a write to register 7, 60_exceptions.md R131 -/
  | ipWrite
deriving DecidableEq, Repr

/-- An instruction definition (40_step_cycle.md R61), over any kind of guard and of base behaviour: the reference table names
them (`GuardName`, `Mnemonic`), an engine's registry holds them as functions. `guards` has the most recently attached guard
at its head. -/
structure Definition (Guard Base : Type) where
  name : String
  validator : Option Validator
  guards : List Guard
  base : Base

/-- The ordered catalogue of instruction definitions; position is opcode (40_step_cycle.md R60). -/
abbrev Registry (Guard Base : Type) := List (Definition Guard Base)

/-- A decoded instruction: a definition and exactly three argument bytes (40_step_cycle.md R64). -/
structure Decoded (Guard Base : Type) where
  definition : Definition Guard Base
  arg0 : Arg
  arg1 : Arg
  arg2 : Arg

/-- The two ways decoding a word fails (40_step_cycle.md R64). -/
inductive DecodeError where
  /-- the opcode byte names no definition -/
  | unknownOpcode
  /-- the definition's validator rejects the argument bytes -/
  | badArguments
deriving DecidableEq, Repr

end Sys2Proof
end

