-- ==== Sys2Proof/WellFormed.lean ====
section
/-! DEFINITION. Which instructions an encoding admits: the argument kinds of the table in 30_encoding.md rule R52, written
out per instruction. (The decoder has them a second time, as the registry's validators; Laws/Decode.lean ties the two.) -/

namespace Sys2Proof

/-- An argument declared "register-or-immediate" (R49). -/
def Arg.isRegImm (a : Arg) : Bool := a.isReg || a.isImm

/-- The arguments are of the kinds the instruction's row of R52 declares. -/
def Instr.wellFormed : Instr → Bool
  | .halt _ _ _ => true
  | .unreachable _ _ _ => true
  | .read rd _ _ => rd.isReg
  | .write src _ _ => src.isRegImm
  | .move rd src _ => rd.isReg && src.isRegImm
  | .loadLiteral rd lit _ => rd.isReg && lit.isImm
  | .cmove rd src cond => rd.isReg && src.isRegImm && cond.isRegImm
  | .add rd a b => rd.isReg && a.isRegImm && b.isRegImm
  | .sub rd a b => rd.isReg && a.isRegImm && b.isRegImm
  | .mul rd a b => rd.isReg && a.isRegImm && b.isRegImm
  | .div rd a b => rd.isReg && a.isRegImm && b.isRegImm
  | .and rd a b => rd.isReg && a.isRegImm && b.isRegImm
  | .or rd a b => rd.isReg && a.isRegImm && b.isRegImm
  | .xor rd a b => rd.isReg && a.isRegImm && b.isRegImm
  | .not rd a _ => rd.isReg && a.isRegImm
  | .shl rd a b => rd.isReg && a.isRegImm && b.isRegImm
  | .shr rd a b => rd.isReg && a.isRegImm && b.isRegImm
  | .load rd addr _ => rd.isReg && addr.isRegImm
  | .store value addr _ => value.isRegImm && addr.isRegImm
  | .configureTraps _ _ _ => true
  | .enterUserMode _ _ _ => true
  | .syscall num _ _ => num.isRegImm

end Sys2Proof
end

