-- ==== Sys2Proof/Decode.lean ====
section
/-! DEFINITION. Registries over any guards and base behaviours, their growth, the decoder and the encoder over any of them
(40_step_cycle.md rules R60, R61, R64, 30_encoding.md rules R51, R58), and the reference registry (R62, R63, R52) with its
instructions. -/

namespace Sys2Proof

/-! ## Fields of an instruction word (30_encoding.md R45; byte 0 is the most significant: 00_scope.md R5, D1, log 1) -/

def Word.opcodeField (w : Word) : Byte := w.extractLsb' 24 8
def Word.arg0Field (w : Word) : Byte := w.extractLsb' 16 8
def Word.arg1Field (w : Word) : Byte := w.extractLsb' 8 8
def Word.arg2Field (w : Word) : Byte := w.extractLsb' 0 8

/-- The table of 30_encoding.md R47. -/
def Arg.ofByte (b : Byte) : Arg :=
  if h : b.toNat < 8 then .reg ⟨b.toNat, h⟩
  else if h : b.toNat < 128 then .invalid ⟨b.toNat - 8, by omega⟩
  else .imm (BitVec.ofNat 7 (b.toNat - 128))

/-- The byte that `Arg.ofByte` reads as this argument. -/
def Arg.toByte : Arg → Byte
  | .reg r => BitVec.ofNat 8 r.val
  | .invalid n => BitVec.ofNat 8 (n.val + 8)
  | .imm v => BitVec.ofNat 8 (v.toNat + 128)

/-! ## Instructions and their names -/

def Instr.mnemonic : Instr → Mnemonic
  | .halt _ _ _ => .halt
  | .unreachable _ _ _ => .unreachable
  | .read _ _ _ => .read
  | .write _ _ _ => .write
  | .move _ _ _ => .move
  | .loadLiteral _ _ _ => .loadLiteral
  | .cmove _ _ _ => .cmove
  | .add _ _ _ => .add
  | .sub _ _ _ => .sub
  | .mul _ _ _ => .mul
  | .div _ _ _ => .div
  | .and _ _ _ => .and
  | .or _ _ _ => .or
  | .xor _ _ _ => .xor
  | .not _ _ _ => .not
  | .shl _ _ _ => .shl
  | .shr _ _ _ => .shr
  | .load _ _ _ => .load
  | .store _ _ _ => .store
  | .configureTraps _ _ _ => .configureTraps
  | .enterUserMode _ _ _ => .enterUserMode
  | .syscall _ _ _ => .syscall

/-- The three arguments of an instruction, in the order of its bytes 1 to 3. -/
def Instr.args : Instr → Arg × Arg × Arg
  | .halt a0 a1 a2 => (a0, a1, a2)
  | .unreachable a0 a1 a2 => (a0, a1, a2)
  | .read a0 a1 a2 => (a0, a1, a2)
  | .write a0 a1 a2 => (a0, a1, a2)
  | .move a0 a1 a2 => (a0, a1, a2)
  | .loadLiteral a0 a1 a2 => (a0, a1, a2)
  | .cmove a0 a1 a2 => (a0, a1, a2)
  | .add a0 a1 a2 => (a0, a1, a2)
  | .sub a0 a1 a2 => (a0, a1, a2)
  | .mul a0 a1 a2 => (a0, a1, a2)
  | .div a0 a1 a2 => (a0, a1, a2)
  | .and a0 a1 a2 => (a0, a1, a2)
  | .or a0 a1 a2 => (a0, a1, a2)
  | .xor a0 a1 a2 => (a0, a1, a2)
  | .not a0 a1 a2 => (a0, a1, a2)
  | .shl a0 a1 a2 => (a0, a1, a2)
  | .shr a0 a1 a2 => (a0, a1, a2)
  | .load a0 a1 a2 => (a0, a1, a2)
  | .store a0 a1 a2 => (a0, a1, a2)
  | .configureTraps a0 a1 a2 => (a0, a1, a2)
  | .enterUserMode a0 a1 a2 => (a0, a1, a2)
  | .syscall a0 a1 a2 => (a0, a1, a2)

/-- The instruction a definition's name and three arguments make. -/
def Mnemonic.build : Mnemonic → Arg → Arg → Arg → Instr
  | .halt => .halt
  | .unreachable => .unreachable
  | .read => .read
  | .write => .write
  | .move => .move
  | .loadLiteral => .loadLiteral
  | .cmove => .cmove
  | .add => .add
  | .sub => .sub
  | .mul => .mul
  | .div => .div
  | .and => .and
  | .or => .or
  | .xor => .xor
  | .not => .not
  | .shl => .shl
  | .shr => .shr
  | .load => .load
  | .store => .store
  | .configureTraps => .configureTraps
  | .enterUserMode => .enterUserMode
  | .syscall => .syscall

/-! ## Registries, their construction and validators -/

section
variable {G B : Type}

/-- `register(definition) -> opcode`: the definition goes to the end and its opcode is its position (R60). -/
def Registry.register (r : Registry G B) (d : Definition G B) : Registry G B × Nat := (r ++ [d], r.length)

/-- `attach(opcode, guard)`: the guard goes to the head of the definition's chain, so that it runs first (R61). DESIGN
CHOICE (log 36): at an opcode that no definition has, the registry stays as it is. -/
def Registry.attach (r : Registry G B) (opcode : Nat) (g : G) : Registry G B :=
  r.modify opcode fun d => { d with guards := g :: d.guards }

/-- Registering a list of definitions in order. -/
def Registry.registerAll (r : Registry G B) (ds : List (Definition G B)) : Registry G B :=
  ds.foldl (fun r d => (r.register d).1) r

/-- Attaching one guard to a list of opcodes. -/
def Registry.attachAll (r : Registry G B) (g : G) (opcodes : List Nat) : Registry G B :=
  opcodes.foldl (fun r op => r.attach op g) r

/-- `opcode(mnemonic)`: the position of the definition of that name (30_encoding.md R58). DESIGN CHOICE (log 34): of several
definitions of one name the first, and for a name no definition has the registry's length. -/
def Registry.positionOf (r : Registry G B) (name : String) : Nat := r.findIdx fun d => d.name == name

/-- A definition without a validator is decoded with no check (30_encoding.md R51). -/
def Definition.accepts (d : Definition G B) (a0 a1 a2 : Arg) : Bool :=
  match d.validator with
  | some v => v a0 a1 a2
  | none => true

/-- The same definition with other guards and another base behaviour in the places of its own. -/
def Definition.interpret {G' B' : Type} (guard : B → G → G') (base : B → B') (d : Definition G B) : Definition G' B' :=
  ⟨d.name, d.validator, d.guards.map (guard d.base), base d.base⟩

/-- The byte is accepted in a position of this kind (30_encoding.md R49). -/
def ArgKind.accepts : ArgKind → Arg → Bool
  | .reg, a => a.isReg
  | .regimm, a => a.isRegImm
  | .imm, a => a.isImm
  | .unused, _ => true

/-- The validator of one kind a position: it accepts when every position accepts its byte (30_encoding.md R49). -/
def ArgKind.validator (k0 k1 k2 : ArgKind) : Validator := fun a0 a1 a2 =>
  k0.accepts a0 && k1.accepts a1 && k2.accepts a2

/-! ## Decode and encode over any registry -/

/-- `decode` of 40_step_cycle.md R64: the unknown opcode first, then the validator. -/
def decodeIn (r : Registry G B) (w : Word) : Except DecodeError (Decoded G B) :=
  let a0 := Arg.ofByte w.arg0Field
  let a1 := Arg.ofByte w.arg1Field
  let a2 := Arg.ofByte w.arg2Field
  match r[w.opcodeField.toNat]? with
  | none => .error .unknownOpcode
  | some d => if d.accepts a0 a1 a2 then .ok ⟨d, a0, a1, a2⟩ else .error .badArguments

/-- The word of an opcode and three argument bytes (30_encoding.md R58). -/
def packWord (op b0 b1 b2 : Byte) : Word := op ++ b0 ++ b1 ++ b2

/-- `encode(mnemonic, b0, b1, b2)` of 30_encoding.md R58. DESIGN CHOICE (log 34): a position of 256 or more keeps its low byte. -/
def encodeIn (r : Registry G B) (name : String) (b0 b1 b2 : Byte) : Word :=
  packWord (BitVec.ofNat 8 (r.positionOf name)) b0 b1 b2

end

/-! ## The reference registry -/

/-- A row of the reference table, before any guard is attached. -/
def tableRow (name : String) (base : Mnemonic) (k0 k1 k2 : ArgKind) : Definition GuardName Mnemonic :=
  ⟨name, some (ArgKind.validator k0 k1 k2), [], base⟩

/-- The base instructions in registration order (30_encoding.md R52; D3, log 3; argument kinds R49, D2, log 2). -/
def baseDefinitions : List (Definition GuardName Mnemonic) :=
  [tableRow "halt" .halt .unused .unused .unused,
   tableRow "unreachable" .unreachable .unused .unused .unused,
   tableRow "read" .read .reg .unused .unused,
   tableRow "write" .write .regimm .unused .unused,
   tableRow "move" .move .reg .regimm .unused,
   tableRow "loadLiteral" .loadLiteral .reg .imm .unused,
   tableRow "cmove" .cmove .reg .regimm .regimm,
   tableRow "add" .add .reg .regimm .regimm,
   tableRow "sub" .sub .reg .regimm .regimm,
   tableRow "mul" .mul .reg .regimm .regimm,
   tableRow "div" .div .reg .regimm .regimm,
   tableRow "and" .and .reg .regimm .regimm,
   tableRow "or" .or .reg .regimm .regimm,
   tableRow "xor" .xor .reg .regimm .regimm,
   tableRow "not" .not .reg .regimm .unused,
   tableRow "shl" .shl .reg .regimm .regimm,
   tableRow "shr" .shr .reg .regimm .regimm,
   tableRow "load" .load .reg .regimm .unused,
   tableRow "store" .store .regimm .regimm .unused]

/-- The three definitions the privilege subsystem appends (30_encoding.md R52, R53 point 2). -/
def kernelDefinitions : List (Definition GuardName Mnemonic) :=
  [tableRow "configure-traps" .configureTraps .unused .unused .unused,
   tableRow "enter-user-mode" .enterUserMode .unused .unused .unused,
   tableRow "syscall" .syscall .regimm .unused .unused]

/-- The reference registry, built in the two phases of R62 with the guards of R63 (D13, D16: logs 13, 16). -/
def registry : Registry GuardName Mnemonic :=
  let bare := Registry.registerAll (Registry.registerAll [] baseDefinitions) kernelDefinitions
  let privileged := Registry.attachAll bare .privileged [0, 1, 2, 3, 19, 20]
  let address := Registry.attachAll privileged .address [17, 18]
  Registry.attachAll address .ipWrite [4, 5, 6, 7, 8, 9, 10, 11, 12, 13, 14, 15, 16]

/-- The definition of that mnemonic, where the registry holds one. -/
def Registry.lookup (r : Registry GuardName Mnemonic) (m : Mnemonic) : Option (Definition GuardName Mnemonic) :=
  r.find? fun d => d.base == m

/-- The opcode of a mnemonic: the position of its definition (30_encoding.md R58). -/
def Registry.opcodeOf (r : Registry GuardName Mnemonic) (m : Mnemonic) : Nat := r.findIdx fun d => d.base == m

/-- The guard chain of a mnemonic, most recently attached first (R61). -/
def Registry.guardsOf (r : Registry GuardName Mnemonic) (m : Mnemonic) : List GuardName :=
  match r.lookup m with
  | some d => d.guards
  | none => []

/-! ## The reference instructions -/

/-- The instruction a decoded row of the reference table is. -/
def Decoded.instr (d : Decoded GuardName Mnemonic) : Instr := d.definition.base.build d.arg0 d.arg1 d.arg2

/-- The reference decoder: KERNEL and USER mode decode every word identically (30_encoding.md section 6). -/
def decode (w : Word) : Except DecodeError Instr := (decodeIn registry w).map Decoded.instr

/-- `encode` of 30_encoding.md R58: the definition's position, then the three argument bytes, the unused ones too. -/
def encode (i : Instr) : Word :=
  packWord (BitVec.ofNat 8 (registry.opcodeOf i.mnemonic)) i.args.1.toByte i.args.2.1.toByte i.args.2.2.toByte

/-- The word of a table row's bits: bits above `nbits` are 0 and an instruction is one word (30_encoding.md R45). -/
def tableWord (nbits w : Nat) : Word := BitVec.ofNat 32 (w % 2 ^ nbits)

/-- What the decoder reads from an instruction whose bits are `w`, numbered as the opcode table numbers them. -/
def decodeTableWord (nbits w : Nat) : Option Instr :=
  match decode (tableWord nbits w) with
  | .ok i => some i
  | .error _ => none

end Sys2Proof
end

