-- ==== Sys2Proof/Machine/State.lean ====
section
/-! DEFINITION. The state of the engine (10_state.md rules R10 to R22), its value after reset (10_state.md rule R26,
70_reset_and_hazards.md rule R150), and the reasons a step can stop. -/

namespace Sys2Proof.Machine

/-- A listed cell of memory: a word address and the Word in it (20_memory.md R30; log 27). -/
abbrev Cell := Nat × Word

/-- Memory (10_state.md R20): the cells that differ from what an unlisted address reads as, by rising address. -/
abbrev Memory := List Cell

/-- What an unlisted address reads as: "the remainder zero-filled" (10_state.md R26). -/
def Memory.unlisted : Word := 0

/-- The canonical form of a memory of `words` cells: addresses strictly rising and below `words`, no cell equal to what an
unlisted one reads as. -/
abbrev Memory.wf (m : Memory) (words : Nat) : Prop :=
  m.Pairwise (fun c d => c.1 < d.1) ∧ ∀ c ∈ m, c.1 < words ∧ c.2 ≠ Memory.unlisted

/-- The privilege-mode register (10_state.md R16): the source's flag is true for `kernel`. -/
inductive Mode where
  | kernel | user
deriving DecidableEq, Repr

/-- The trap configuration (10_state.md R19). -/
structure TrapConfig where
  /-- `cfg.handler`, the trap-handler entry point -/
  handler : Word
  /-- `cfg.sysno_cell`, the address of the syscall-number cell -/
  sysnoCell : Word
  /-- `cfg.reason_cell`, the address of the trap-reason cell -/
  reasonCell : Word
  /-- `cfg.ret_cell`, the address of the return-address cell -/
  retCell : Word
deriving DecidableEq, Repr

/-- The trap reasons (60_exceptions.md R121): a closed set. -/
inductive Reason where
  | syscall | timer | outOfBounds | illegalInstruction
deriving DecidableEq, Repr

/-- The host-visible errors (60_exceptions.md R133; D20, log 20): a closed set. Each halts the engine and is reported in
`State.report`; a step that ends so still has a next state (log 25). -/
inductive HostError where
  /-- `x[7] >= MEM_WORDS` at the fetch (40_step_cycle.md R70) -/
  | ipBounds
  /-- the fetched word does not decode (40_step_cycle.md R71) -/
  | decode (e : DecodeError)
  /-- `GuardError(e)`: a guard returned the error `e`; no guard of the reference registry does (40_step_cycle.md R67). DESIGN
  CHOICE (log 35): `e` is a text -/
  | guardError (message : String)
  /-- a data access or a trap-cell write at or beyond `MEM_WORDS` (20_memory.md R31, 60_exceptions.md R138; D8, log 8) -/
  | dataBounds
  /-- `div` with a zero divisor (41_data_instructions.md R87; D5, log 5) -/
  | divideByZero
  /-- `unreachable` in KERNEL mode (43_device_and_halt.md R109; D6, log 6) -/
  | unreachable
  /-- an argument byte in 8 to 127 was resolved (30_encoding.md R48; D19, log 19): never in the reference registry -/
  | invalidOperand
deriving DecidableEq, Repr

/-- The state of the engine. -/
structure State where
  /-- `x[0]` to `x[7]` (10_state.md R10) -/
  regs : Vector Word Config.numRegs
  /-- `M` (10_state.md R20) -/
  mem : Memory
  /-- `mode` (10_state.md R16) -/
  mode : Mode
  /-- `halted` (10_state.md R15) -/
  halted : Bool
  /-- `counter`, the preemption counter (10_state.md R17) -/
  counter : Word
  /-- `stash` (10_state.md R18) -/
  stash : Word
  /-- `cfg` (10_state.md R19) -/
  trapCfg : TrapConfig
  /-- `in_queue`, head first (10_state.md R21) -/
  inQueue : List Byte
  /-- `in_eof`: the source will supply no more bytes (10_state.md R21) -/
  inEof : Bool
  /-- `out_log`, oldest byte first (10_state.md R22) -/
  outLog : List Byte
  /-- the model's own field: the error the halting step reported to the host (60_exceptions.md R133; log 25) -/
  report : Option HostError
deriving DecidableEq, Repr

/-- The state after reset with an empty boot image, an empty payload (framed as the two bytes `00 00`) and no further
input (70_reset_and_hazards.md R150 to R152, 10_state.md R26). Log 9 names the registers' values, log 26 the launch. -/
def State.reset : State where
  regs := Vector.replicate Config.numRegs 0
  mem := []
  mode := .kernel
  halted := false
  counter := 0
  stash := 0
  trapCfg := ⟨0, 0, 0, 0⟩
  inQueue := [0, 0]
  inEof := true
  outLog := []
  report := none

/-- What stops the machine with no next state (log 25). -/
inductive Fault where
  /-- Raised by `read` on an empty queue whose source has ended: "it aborts the host process outright", `Abort`
  (43_device_and_halt.md R106, 60_exceptions.md R145; D15, log 15). Safe: the engine has no successor state either. -/
  | deviceAbort
  /-- Raised by `read` on an empty queue whose source is open: the step has not happened, `Hold`; it can be taken again
  after a host append (43_device_and_halt.md R106; D15, log 15). Safe: the engine waits. -/
  | inputHold
deriving DecidableEq, Repr

/-- What the machine gives no meaning to. -/
inductive Refusal where
  /-- Raised by `exec`'s arm of an instruction that has no meaning yet (none is left). Safe: nothing follows. -/
  | notModelled (mnemonic : String)
  /-- Raised by `step` on a HALTED engine: a contract violation, no transition exists (40_step_cycle.md R68; D14, log 14).
  Safe: the engine has no transition either. -/
  | engineHalted
deriving DecidableEq, Repr

/-- The outcome of a step, or of an instruction inside it. -/
abbrev StepResult := Host.Outcome State Fault Refusal

end Sys2Proof.Machine
end

