-- ==== Sys2Proof/Machine/Ops.lean ====
section
/-! DEFINITION. The named operations over registers, memory and the rest of the state; raising a host-visible error;
taking a trap (60_exceptions.md rule R123) and returning from one (44_kernel_instructions.md rule R114); the guard chain
(40_step_cycle.md rule R65); the pre-execute hook (60_exceptions.md rule R126). -/

namespace Sys2Proof.Machine

/-! ## The reference parameters (00_scope.md R4; log 32) -/

/-- `TIMER_FIRES` of the reference configuration: equality (60_exceptions.md R127; D10, log 10). -/
def timerReaches (counter threshold : Word) : Bool := decide (counter = threshold)

/-- The reference values of R4; the loader supplies the boot image and the payload, here the empty ones (log 26). -/
def reference : Params where
  memWords := 2048
  userBase := 1024
  userLimit := 2048
  kernelWords := 1024
  timerThreshold := 129
  timerFires := timerReaches
  bootImage := []
  payload := []

/-! ## Registers (10_state.md R10, R11, R13) -/

/-- `x[r]`. -/
def State.reg (s : State) (r : Reg) : Word := s.regs[r]

/-- `x[r] <- v`. -/
def State.setReg (s : State) (r : Reg) (v : Word) : State := { s with regs := s.regs.set r v }

/-- `ip`, another name for `x[7]`. -/
def State.ip (s : State) : Word := s.reg ipReg

/-- `pc <- t`, which is `x[7] <- t`. -/
def State.setIp (s : State) (t : Word) : State := s.setReg ipReg t

/-! ## Memory (20_memory.md R30, R31) -/

/-- The Word in the cell at address `a`. -/
def Memory.get : Memory → Nat → Word
  | [], _ => Memory.unlisted
  | (k, w) :: m, a => if a = k then w else Memory.get m a

/-- A cell in front of a memory, where it must be listed at all. -/
def Memory.cons (a : Nat) (v : Word) (m : Memory) : Memory := if v = Memory.unlisted then m else (a, v) :: m

/-- Writing one cell, keeping the canonical form. -/
def Memory.set : Memory → Nat → Word → Memory
  | [], a, v => Memory.cons a v []
  | (k, w) :: m, a, v =>
    if a < k then Memory.cons a v ((k, w) :: m)
    else if a = k then Memory.cons a v m
    else (k, w) :: Memory.set m a v

/-- Consecutive words from address `a` upward. -/
def Memory.setAll : Memory → Nat → List Word → Memory
  | m, _, [] => m
  | m, a, w :: ws => Memory.setAll (m.set a w) (a + 1) ws

/-- The address names a cell. -/
def inMemory (p : Params) (a : Word) : Bool := decide (a.toNat < p.memWords)

/-- `M[a]`, which is also how the host reads memory between steps (20_memory.md R37). -/
def State.cell (s : State) (a : Word) : Word := s.mem.get a.toNat

/-- `M[a] <- v` for an address that names a cell. -/
def State.setCell (s : State) (a v : Word) : State := { s with mem := s.mem.set a.toNat v }

/-! ## The rest of the state -/

def State.setMode (s : State) (m : Mode) : State := { s with mode := m }
def State.setCounter (s : State) (c : Word) : State := { s with counter := c }
def State.setStash (s : State) (v : Word) : State := { s with stash := v }
def State.setTrapCfg (s : State) (c : TrapConfig) : State := { s with trapCfg := c }
def State.setInQueue (s : State) (q : List Byte) : State := { s with inQueue := q }
def State.appendOut (s : State) (b : Byte) : State := { s with outLog := s.outLog ++ [b] }

/-- `halted <- true` (10_state.md R15). -/
def State.halt (s : State) : State := { s with halted := true }

/-- `raise e`: the engine halts and the step reports `e`; every effect made before stands (60_exceptions.md R133,
40_step_cycle.md R75). -/
def State.raise (s : State) (e : HostError) : State := { s with halted := true, report := some e }

/-! ## Effects in order, the first failing one ending the sequence (40_step_cycle.md R75) -/

/-- What a sequence of effects answers: all were made, or one failed and the earlier ones stand. -/
inductive Effect where
  | ok (s : State)
  | err (e : HostError) (s : State)
deriving DecidableEq, Repr

/-- One effect after another. -/
def Effect.andThen : Effect → (State → Effect) → Effect
  | .ok s, f => f s
  | .err e s, _ => .err e s

/-- A base behaviour that is a sequence of effects completes the step or raises its error (40_step_cycle.md R73). -/
def Effect.result : Effect → StepResult
  | .ok s => .next s
  | .err e s => .next (s.raise e)

/-- `MemRead(a, 1)` (20_memory.md R31; D8, log 8). -/
def memRead (p : Params) (a : Word) (s : State) : Except HostError Word :=
  if inMemory p a then .ok (s.cell a) else .error .dataBounds

/-- `MemWrite(a, 1, v)` (20_memory.md R31; D8, log 8). -/
def memWrite (p : Params) (a v : Word) (s : State) : Effect :=
  if inMemory p a then .ok (s.setCell a v) else .err .dataBounds s

/-! ## The memory-bounds comparator (20_memory.md R38) -/

/-- `inBounds(a)`: the address lies in the user region. -/
def inBounds (p : Params) (a : Word) : Bool := decide (p.userBase ≤ a.toNat) && decide (a.toNat < p.userLimit)

/-! ## Taking a trap -/

/-- The word written to the trap-reason cell (60_exceptions.md R121). -/
def Reason.code : Reason → Word
  | .syscall => 0
  | .timer => 1
  | .outOfBounds => 2
  | .illegalInstruction => 3

/-- `DeliverTrap(reason)`, its five effects in order (60_exceptions.md R123; a trap cell outside memory: R138). -/
def deliverTrap (p : Params) (r : Reason) (s : State) : Effect :=
  (memWrite p s.trapCfg.retCell s.ip (s.setMode .kernel)).andThen fun s2 =>
  (memWrite p s2.trapCfg.reasonCell r.code (s2.setIp s2.trapCfg.handler)).andThen fun s4 =>
  .ok (s4.setStash (s4.reg 0))

/-- The return from a trap, "the mode-return operation": mode, then `x[7]` from `x[0]`, then `x[0]` from the stash
(44_kernel_instructions.md R114, 60_exceptions.md R136). -/
def returnToUser (s : State) : State :=
  let s1 := (s.setMode .user).setIp (s.reg 0)
  s1.setReg 0 s1.stash

/-! ## Guards (40_step_cycle.md R65 to R67) -/

/-- What a guard or the pre-execute hook answers, `(skip, error)`, with the state it leaves. -/
structure Answer (Failure : Type) where
  state : State
  skip : Bool
  error : Option Failure
deriving DecidableEq, Repr

/-- The answer "pass": no error, no skip, nothing changed. -/
def Answer.pass {Failure : Type} (s : State) : Answer Failure := ⟨s, false, none⟩

/-- The errors a guard can end the step with (60_exceptions.md R133): one it returns itself, or one that a primitive it uses
raises (00_scope.md R7), which ends the step as it does anywhere else (log 25). -/
inductive GuardFailure where
  /-- the guard returns an error (40_step_cycle.md R65, R67); no guard of the reference registry does -/
  | returned (e : String)
  /-- a `MemRead` or `MemWrite` raised: a trap cell outside memory (60_exceptions.md R138) -/
  | dataBounds
  /-- `resolve` raised (30_encoding.md R48): never in the reference registry -/
  | invalidOperand
deriving DecidableEq, Repr

/-- The kind the step reports: an error that the guard returned is a `GuardError` (60_exceptions.md R133). -/
def GuardFailure.kind : GuardFailure → HostError
  | .returned e => .guardError e
  | .dataBounds => .dataBounds
  | .invalidOperand => .invalidOperand

/-- What a guard answers. -/
abbrev GuardAnswer := Answer GuardFailure

/-- A guard, its parameters and argument bytes already given. -/
abbrev Guard := State → GuardAnswer

/-- Delivering a trap in place of what would have happened, then `skip`; the only error delivery has is that of a
trap cell outside memory (60_exceptions.md R129 to R131, R138). -/
def trapAndSkip (p : Params) (r : Reason) (s : State) : GuardAnswer :=
  match deliverTrap p r s with
  | .ok s' => ⟨s', true, none⟩
  | .err _ s' => ⟨s', false, some .dataBounds⟩

/-- `run` of 40_step_cycle.md R65: the guards, most recently attached first, each error examined before its skip; then the
base behaviour. -/
def runChain : List Guard → (State → StepResult) → State → StepResult
  | [], base, s => base s
  | g :: gs, base, s =>
    match (g s).error with
    | some e => .next ((g s).state.raise e.kind)
    | none => if (g s).skip then .next (g s).state else runChain gs base (g s).state

/-! ## Definitions of an engine (40_step_cycle.md R61, R65) -/

/-- An interception guard: "a function of (engine, argument bytes)", which may read and write any engine state (R65). -/
abbrev InterceptionGuard := Params → Arg → Arg → Arg → Guard

/-- A base behaviour, run on the argument bytes after the guards. -/
abbrev Behaviour := Params → Arg → Arg → Arg → State → StepResult

/-- `run` of 40_step_cycle.md R65 for a decoded instruction: its definition's guard chain, then its base behaviour. -/
def runDecoded (p : Params) (d : Decoded InterceptionGuard Behaviour) (s : State) : StepResult :=
  runChain (d.definition.guards.map fun g => g p d.arg0 d.arg1 d.arg2) (d.definition.base p d.arg0 d.arg1 d.arg2) s

/-- The engine's whole configuration (00_scope.md R4): the parameters and `REGISTRY`, whose guards and base behaviours are
any functions. It is fixed before the first step and no step changes it (40_step_cycle.md R62; D16, log 16). -/
structure Configuration extends Params where
  registry : Registry InterceptionGuard Behaviour

/-- The configuration with one definition more at the end of its registry (40_step_cycle.md R60). -/
def Configuration.register (c : Configuration) (d : Definition InterceptionGuard Behaviour) : Configuration :=
  { c with registry := (c.registry.register d).1 }

/-- The configuration with a guard layered onto the definition at that opcode (40_step_cycle.md R61). -/
def Configuration.attach (c : Configuration) (opcode : Nat) (g : InterceptionGuard) : Configuration :=
  { c with registry := c.registry.attach opcode g }

/-! ## The preemption timer -/

/-- `PreExecuteHook()` (60_exceptions.md R126); the step reports its error as it is (40_step_cycle.md R69). -/
def preExecuteHook (p : Params) (s : State) : Answer HostError :=
  match s.mode with
  | .kernel => .pass s
  | .user =>
    let s1 := s.setCounter (s.counter + 1)
    if p.timerFires s1.counter p.timerThreshold then
      match deliverTrap p .timer s1 with
      | .ok s2 => ⟨s2.setCounter 0, true, none⟩
      | .err e s2 => ⟨s2, false, some e⟩
    else .pass s1

end Sys2Proof.Machine
end

