-- ==== Sys2Proof/Machine/Operands.lean ====
section
/-! DEFINITION. The operand forms: `resolve` of 30_encoding.md rule R48 and a destination register
(41_data_instructions.md rule R80). -/

namespace Sys2Proof.Machine

/-- The value of an immediate, 0 to 127, as a Word: no sign extension, no scaling (30_encoding.md R47). -/
def immWord (v : BitVec 7) : Word := v.setWidth 32

/-- `zext_32(b)`: the byte as a Word, upper 24 bits zero (00_scope.md R7). -/
def zextByte (b : Byte) : Word := b.setWidth 32

/-- `v mod 256`, the low 8 bits (43_device_and_halt.md R107). -/
def lowByte (v : Word) : Byte := v.setWidth 8

/-- `resolve(b)`: an immediate's value, or the register's value at the moment of the call; a byte that names no register
is an error (30_encoding.md R48; D19, log 19). -/
def resolve (a : Arg) (s : State) : Except HostError Word :=
  match a with
  | .reg r => .ok (s.reg r)
  | .imm v => .ok (immWord v)
  | .invalid _ => .error .invalidOperand

/-- `x[arg0] <- v` (41_data_instructions.md R80). A byte that names no register cannot get past the validators of the
reference registry; it is an `InvalidOperandError` here (log 29). -/
def writeDest (rd : Arg) (v : Word) (s : State) : Effect :=
  match rd with
  | .reg r => .ok (s.setReg r v)
  | .imm _ => .err .invalidOperand s
  | .invalid _ => .err .invalidOperand s

end Sys2Proof.Machine
end

