-- ==== Sys2Proof/Machine/Flags.lean ====
section
/-! DEFINITION. The machine has no status flags and no condition codes (10_state.md rule R24): no instruction computes
one. In their place this file holds what each data instruction computes, its "value for the ip-write gate" in
41_data_instructions.md: `none` where the instruction would write nothing (a `cmove` whose condition is zero, a `div`
whose divisor is zero: 60_exceptions.md rules R131, R132; D12, D5, logs 12, 5). The gate and the base behaviour use the
same one (60_exceptions.md rule R131). -/

namespace Sys2Proof.Machine

/-- The result of a data instruction: an error of `resolve`, nothing to write, or a value to write. -/
abbrev DataResult := Except HostError (Option Word)

/-- A result of one source. -/
def unary (f : Word → Option Word) (a : Arg) (s : State) : DataResult :=
  match resolve a s with
  | .ok x => .ok (f x)
  | .error e => .error e

/-- A result of two sources, both read before anything is written (41_data_instructions.md R80). -/
def binary (f : Word → Word → Option Word) (a b : Arg) (s : State) : DataResult :=
  match resolve a s with
  | .ok x => unary (f x) b s
  | .error e => .error e

/-! ## The functions of 41_data_instructions.md on Words (D4, log 4) -/

/-- The unsigned quotient, none for a zero divisor (R87). -/
def divWord (n d : Word) : Option Word := if d = 0 then none else some (n / d)

/-- `(x * 2^n) mod 2^32`, 0 from an amount of 32 on (R92). -/
def shlWord (x n : Word) : Word := if n < 32 then x <<< n.toNat else 0

/-- `x div 2^n`, 0 from an amount of 32 on (R93). -/
def shrWord (x n : Word) : Word := if n < 32 then x >>> n.toNat else 0

/-- The source if the condition is not zero (R83). -/
def cmoveWord (v c : Word) : Option Word := if c = 0 then none else some v

/-! ## One result an instruction -/

def moveResult (src : Arg) (s : State) : DataResult := unary (fun v => some v) src s
def loadLiteralResult (lit : Arg) (s : State) : DataResult := unary (fun v => some v) lit s
def cmoveResult (src cond : Arg) (s : State) : DataResult := binary cmoveWord src cond s
def addResult (a b : Arg) (s : State) : DataResult := binary (fun x y => some (x + y)) a b s
def subResult (a b : Arg) (s : State) : DataResult := binary (fun x y => some (x - y)) a b s
def mulResult (a b : Arg) (s : State) : DataResult := binary (fun x y => some (x * y)) a b s
def divResult (a b : Arg) (s : State) : DataResult := binary divWord a b s
def andResult (a b : Arg) (s : State) : DataResult := binary (fun x y => some (x &&& y)) a b s
def orResult (a b : Arg) (s : State) : DataResult := binary (fun x y => some (x ||| y)) a b s
def xorResult (a b : Arg) (s : State) : DataResult := binary (fun x y => some (x ^^^ y)) a b s
def notResult (a : Arg) (s : State) : DataResult := unary (fun x => some (~~~x)) a s
def shlResult (a b : Arg) (s : State) : DataResult := binary (fun x n => some (shlWord x n)) a b s
def shrResult (a b : Arg) (s : State) : DataResult := binary (fun x n => some (shrWord x n)) a b s

/-- The result of the definition of that name, from `arg1` and `arg2`; the definitions that are no data instructions have
none (41_data_instructions.md). -/
def dataResult (m : Mnemonic) (a1 a2 : Arg) (s : State) : DataResult :=
  match m with
  | .move => moveResult a1 s
  | .loadLiteral => loadLiteralResult a1 s
  | .cmove => cmoveResult a1 a2 s
  | .add => addResult a1 a2 s
  | .sub => subResult a1 a2 s
  | .mul => mulResult a1 a2 s
  | .div => divResult a1 a2 s
  | .and => andResult a1 a2 s
  | .or => orResult a1 a2 s
  | .xor => xorResult a1 a2 s
  | .not => notResult a1 s
  | .shl => shlResult a1 a2 s
  | .shr => shrResult a1 a2 s
  | .halt => .ok none
  | .unreachable => .ok none
  | .read => .ok none
  | .write => .ok none
  | .load => .ok none
  | .store => .ok none
  | .configureTraps => .ok none
  | .enterUserMode => .ok none
  | .syscall => .ok none

end Sys2Proof.Machine
end

