-- ==== Sys2Proof/Machine/Gates.lean ====
section
/-! DEFINITION. The three gates of the privilege subsystem (60_exceptions.md rules R129 to R132) and running an
instruction behind the guards its definition carries (40_step_cycle.md rules R63, R65). -/

namespace Sys2Proof.Machine

/-- The privileged-instruction gate (R129): it does not look at the arguments. -/
def privGate (p : Params) : Guard := fun s =>
  match s.mode with
  | .user => trapAndSkip p .illegalInstruction s
  | .kernel => .pass s

/-- The address gate (R130), on the address operand; the only error is that of `resolve`. -/
def addrGate (p : Params) (addr : Arg) : Guard := fun s =>
  match s.mode with
  | .kernel => .pass s
  | .user =>
    match resolve addr s with
    | .error _ => ⟨s, false, some .invalidOperand⟩
    | .ok a => if inBounds p a then .pass s else trapAndSkip p .outOfBounds s

/-- The ip-write gate (R131, R132), on the destination and the instruction's own result; the only error is that of
`resolve`. -/
def ipWriteGate (p : Params) (rd : Arg) (result : State → DataResult) : Guard := fun s =>
  match s.mode with
  | .kernel => .pass s
  | .user =>
    if rd = .reg ipReg then
      match result s with
      | .error _ => ⟨s, false, some .invalidOperand⟩
      | .ok none => .pass s
      | .ok (some v) => if inBounds p v then .pass s else trapAndSkip p .outOfBounds s
    else .pass s

/-- The guard of that name on the definition of that mnemonic; the address operand of `load` and `store` is `arg1`
(R130). -/
def gate (m : Mnemonic) (g : GuardName) : InterceptionGuard :=
  match g with
  | .privileged => fun p _ _ _ => privGate p
  | .address => fun p _ a1 _ => addrGate p a1
  | .ipWrite => fun p a0 a1 a2 => ipWriteGate p a0 (dataResult m a1 a2)

/-- An instruction of the reference configuration: the guard chain of its definition, then its base behaviour
(40_step_cycle.md R65). -/
def run (m : Mnemonic) (a0 a1 a2 : Arg) (base : Behaviour) (s : State) : StepResult :=
  runChain ((registry.guardsOf m).map fun g => gate m g reference a0 a1 a2) (base reference a0 a1 a2) s

end Sys2Proof.Machine
end

