-- ==== Sys2Proof/Machine/Data.lean ====
section
/-! DEFINITION. The thirteen data instructions (41_data_instructions.md): each computes its result and commits it to its
destination, behind the ip-write gate. -/

namespace Sys2Proof.Machine

/-- Committing a result: nothing where the instruction writes nothing (R80). -/
def commit (rd : Arg) (r : DataResult) (s : State) : Effect :=
  match r with
  | .error e => .err e s
  | .ok none => .ok s
  | .ok (some v) => writeDest rd v s

/-- `move rd, src` (R81). -/
def moveBase (_ : Params) (rd src _ : Arg) (s : State) : StepResult :=
  (commit rd (moveResult src s) s).result

/-- `move` behind its guards in the reference configuration. -/
def execMove (rd src u2 : Arg) (s : State) : StepResult := run .move rd src u2 moveBase s

/-- `loadLiteral rd, lit` (R82). -/
def loadLiteralBase (_ : Params) (rd lit _ : Arg) (s : State) : StepResult :=
  (commit rd (loadLiteralResult lit s) s).result

/-- `loadLiteral` behind its guards in the reference configuration. -/
def execLoadLiteral (rd lit u2 : Arg) (s : State) : StepResult := run .loadLiteral rd lit u2 loadLiteralBase s

/-- `cmove rd, src, cond` (R83): with a zero condition it does nothing. -/
def cmoveBase (_ : Params) (rd src cond : Arg) (s : State) : StepResult :=
  (commit rd (cmoveResult src cond s) s).result

/-- `cmove` behind its guards in the reference configuration. -/
def execCmove (rd src cond : Arg) (s : State) : StepResult := run .cmove rd src cond cmoveBase s

/-- `add rd, a, b` (R84). -/
def addBase (_ : Params) (rd a b : Arg) (s : State) : StepResult :=
  (commit rd (addResult a b s) s).result

/-- `add` behind its guards in the reference configuration. -/
def execAdd (rd a b : Arg) (s : State) : StepResult := run .add rd a b addBase s

/-- `sub rd, a, b` (R85). -/
def subBase (_ : Params) (rd a b : Arg) (s : State) : StepResult :=
  (commit rd (subResult a b s) s).result

/-- `sub` behind its guards in the reference configuration. -/
def execSub (rd a b : Arg) (s : State) : StepResult := run .sub rd a b subBase s

/-- `mul rd, a, b` (R86). -/
def mulBase (_ : Params) (rd a b : Arg) (s : State) : StepResult :=
  (commit rd (mulResult a b s) s).result

/-- `mul` behind its guards in the reference configuration. -/
def execMul (rd a b : Arg) (s : State) : StepResult := run .mul rd a b mulBase s

/-- `div rd, a, b` (R87): a zero divisor raises `DivideByZeroError` and writes nothing, in either mode (R132). -/
def divBase (_ : Params) (rd a b : Arg) (s : State) : StepResult :=
  match divResult a b s with
  | .ok none => .next (s.raise .divideByZero)
  | r => (commit rd r s).result

/-- `div` behind its guards in the reference configuration. -/
def execDiv (rd a b : Arg) (s : State) : StepResult := run .div rd a b divBase s

/-- `and rd, a, b` (R88). -/
def andBase (_ : Params) (rd a b : Arg) (s : State) : StepResult :=
  (commit rd (andResult a b s) s).result

/-- `and` behind its guards in the reference configuration. -/
def execAnd (rd a b : Arg) (s : State) : StepResult := run .and rd a b andBase s

/-- `or rd, a, b` (R89). -/
def orBase (_ : Params) (rd a b : Arg) (s : State) : StepResult :=
  (commit rd (orResult a b s) s).result

/-- `or` behind its guards in the reference configuration. -/
def execOr (rd a b : Arg) (s : State) : StepResult := run .or rd a b orBase s

/-- `xor rd, a, b` (R90). -/
def xorBase (_ : Params) (rd a b : Arg) (s : State) : StepResult :=
  (commit rd (xorResult a b s) s).result

/-- `xor` behind its guards in the reference configuration. -/
def execXor (rd a b : Arg) (s : State) : StepResult := run .xor rd a b xorBase s

/-- `not rd, a` (R91). -/
def notBase (_ : Params) (rd a _ : Arg) (s : State) : StepResult :=
  (commit rd (notResult a s) s).result

/-- `not` behind its guards in the reference configuration. -/
def execNot (rd a u2 : Arg) (s : State) : StepResult := run .not rd a u2 notBase s

/-- `shl rd, a, b` (R92). -/
def shlBase (_ : Params) (rd a b : Arg) (s : State) : StepResult :=
  (commit rd (shlResult a b s) s).result

/-- `shl` behind its guards in the reference configuration. -/
def execShl (rd a b : Arg) (s : State) : StepResult := run .shl rd a b shlBase s

/-- `shr rd, a, b` (R93). -/
def shrBase (_ : Params) (rd a b : Arg) (s : State) : StepResult :=
  (commit rd (shrResult a b s) s).result

/-- `shr` behind its guards in the reference configuration. -/
def execShr (rd a b : Arg) (s : State) : StepResult := run .shr rd a b shrBase s

end Sys2Proof.Machine
end

