-- ==== Sys2Proof/Machine/Device.lean ====
section
/-! DEFINITION. `read`, `write`, `halt` and `unreachable` (43_device_and_halt.md rules R105 to R109), behind the
privileged-instruction gate. -/

namespace Sys2Proof.Machine

/-- `halt` (R108). -/
def haltBase (_ : Params) (_ _ _ : Arg) (s : State) : StepResult :=
  .next s.halt

/-- `halt` behind its guards in the reference configuration. -/
def execHalt (u0 u1 u2 : Arg) (s : State) : StepResult := run .halt u0 u1 u2 haltBase s

/-- `unreachable` (R109; D6, log 6). -/
def unreachableBase (_ : Params) (_ _ _ : Arg) (s : State) : StepResult :=
  .next (s.raise .unreachable)

/-- `unreachable` behind its guards in the reference configuration. -/
def execUnreachable (u0 u1 u2 : Arg) (s : State) : StepResult := run .unreachable u0 u1 u2 unreachableBase s

/-- `read rd` (R106; D7, D15, logs 7, 15): the head byte, `Abort` at the end of the stream, `Hold` where it is not there
yet. -/
def readBase (_ : Params) (rd _ _ : Arg) (s : State) : StepResult :=
  match s.inQueue with
  | [] => if s.inEof then .fault .deviceAbort else .fault .inputHold
  | b :: q => ((writeDest rd (zextByte b) s).andThen fun s' => .ok (s'.setInQueue q)).result

/-- `read` behind its guards in the reference configuration. -/
def execRead (rd u1 u2 : Arg) (s : State) : StepResult := run .read rd u1 u2 readBase s

/-- `write src` (R107; D7, log 7): the sink never fails (D15, log 15). -/
def writeBase (_ : Params) (src _ _ : Arg) (s : State) : StepResult :=
  match resolve src s with
  | .error e => .next (s.raise e)
  | .ok v => .next (s.appendOut (lowByte v))

/-- `write` behind its guards in the reference configuration. -/
def execWrite (src u1 u2 : Arg) (s : State) : StepResult := run .write src u1 u2 writeBase s

end Sys2Proof.Machine
end

