-- ==== Sys2Proof/Machine/Kernel.lean ====
section
/-! DEFINITION. `configure-traps`, `enter-user-mode` and `syscall` (44_kernel_instructions.md rules R113 to R115). -/

namespace Sys2Proof.Machine

/-- `configure-traps` (R113): four registers into the trap configuration, unchecked. -/
def configureTrapsBase (_ : Params) (_ _ _ : Arg) (s : State) : StepResult :=
  .next (s.setTrapCfg ⟨s.reg 0, s.reg 1, s.reg 2, s.reg 3⟩)

/-- `configure-traps` behind its guards in the reference configuration. -/
def execConfigureTraps (u0 u1 u2 : Arg) (s : State) : StepResult := run .configureTraps u0 u1 u2 configureTrapsBase s

/-- `enter-user-mode` (R114). -/
def enterUserModeBase (_ : Params) (_ _ _ : Arg) (s : State) : StepResult :=
  .next (returnToUser s)

/-- `enter-user-mode` behind its guards in the reference configuration. -/
def execEnterUserMode (u0 u1 u2 : Arg) (s : State) : StepResult := run .enterUserMode u0 u1 u2 enterUserModeBase s

/-- The trap gate's effects after its argument is resolved: the trap, the number, the counter (R115). -/
def syscallEffect (p : Params) (n : Word) (s : State) : Effect :=
  (deliverTrap p .syscall s).andThen fun s1 =>
  (memWrite p s1.trapCfg.sysnoCell n s1).andThen fun s2 =>
  .ok (s2.setCounter (s2.counter - 1))

/-- `syscall num` (R115): the argument is read before the trap changes `x[7]` (D11, log 11). -/
def syscallBase (p : Params) (num _ _ : Arg) (s : State) : StepResult :=
  match resolve num s with
  | .error e => .next (s.raise e)
  | .ok n => (syscallEffect p n s).result

/-- `syscall` behind its guards in the reference configuration. -/
def execSyscall (num u1 u2 : Arg) (s : State) : StepResult := run .syscall num u1 u2 syscallBase s

end Sys2Proof.Machine
end

