-- ==== Sys2Proof/Machine/MemoryAccess.lean ====
section
/-! DEFINITION. `load` and `store` (42_memory_instructions.md rules R100 to R102), behind the address gate. -/

namespace Sys2Proof.Machine

/-- The effective address of both instructions: the resolved address operand (R100). -/
def effectiveAddress (addr : Arg) (s : State) : Except HostError Word := resolve addr s

/-- `load rd, addr` (R101). -/
def loadBase (p : Params) (rd addr _ : Arg) (s : State) : StepResult :=
  match effectiveAddress addr s with
  | .error e => .next (s.raise e)
  | .ok ea =>
    match memRead p ea s with
    | .error e => .next (s.raise e)
    | .ok w => (writeDest rd w s).result

/-- `load` behind its guards in the reference configuration. -/
def execLoad (rd addr u2 : Arg) (s : State) : StepResult := run .load rd addr u2 loadBase s

/-- `store value, addr` (R102). -/
def storeBase (p : Params) (value addr _ : Arg) (s : State) : StepResult :=
  match resolve value s with
  | .error e => .next (s.raise e)
  | .ok v =>
    match effectiveAddress addr s with
    | .error e => .next (s.raise e)
    | .ok ea => (memWrite p ea v s).result

/-- `store` behind its guards in the reference configuration. -/
def execStore (value addr u2 : Arg) (s : State) : StepResult := run .store value addr u2 storeBase s

end Sys2Proof.Machine
end

