-- ==== Sys2Proof/Machine/Registry.lean ====
section
/-! DEFINITION. The reference configuration (00_scope.md rule R4): the reference registry of Decode.lean with its guards and
base behaviours in the places of their names (40_step_cycle.md rule R62). -/

namespace Sys2Proof.Machine

/-- The base behaviour of each reference definition. -/
def behaviourOf : Mnemonic → Behaviour
  | .halt => haltBase
  | .unreachable => unreachableBase
  | .read => readBase
  | .write => writeBase
  | .move => moveBase
  | .loadLiteral => loadLiteralBase
  | .cmove => cmoveBase
  | .add => addBase
  | .sub => subBase
  | .mul => mulBase
  | .div => divBase
  | .and => andBase
  | .or => orBase
  | .xor => xorBase
  | .not => notBase
  | .shl => shlBase
  | .shr => shrBase
  | .load => loadBase
  | .store => storeBase
  | .configureTraps => configureTrapsBase
  | .enterUserMode => enterUserModeBase
  | .syscall => syscallBase

/-- A reference definition as an engine holds it. -/
def installed : Definition GuardName Mnemonic → Definition InterceptionGuard Behaviour :=
  Definition.interpret gate behaviourOf

/-- The reference registry under any parameters: the 22 definitions of 30_encoding.md R52. -/
def Configuration.ofParams (p : Params) : Configuration := { p with registry := Sys2Proof.registry.map installed }

/-- The reference configuration of R4. -/
def Configuration.reference : Configuration := .ofParams Machine.reference

end Sys2Proof.Machine
end

