-- ==== Sys2Proof/Machine/Cycle.lean ====
section
/-! DEFINITION. The stages of a step (40_step_cycle.md rules R68 to R74), over any parameters, any decoder and any way to run
what it decodes; and `stepIn`, the step of an engine of any configuration. A stage either ends the step with its outcome
(`.error`) or goes on (`.ok`). -/

namespace Sys2Proof.Machine

variable {α : Type}

/-- Stages 3 to 5: the bound on the instruction pointer (R70), fetch and decode (R71), the advance (R72). -/
def fetchStage (p : Params) (dec : Word → Except DecodeError α) (s : State) : Except StepResult (α × State) :=
  if inMemory p s.ip then
    match dec (s.cell s.ip) with
    | .error k => .error (.next (s.raise (.decode k)))
    | .ok i => .ok (i, s.setIp (s.ip + 1))
  else .error (.next (s.raise .ipBounds))

/-- Stages 1 to 5: the HALTED precondition (R68), the pre-execute hook (R69), then stages 3 to 5. -/
def beginStep (p : Params) (dec : Word → Except DecodeError α) (s : State) : Except StepResult (α × State) :=
  if s.halted then .error (.refused .engineHalted)
  else
    match (preExecuteHook p s).error with
    | some e => .error (.next ((preExecuteHook p s).state.raise e))
    | none =>
      if (preExecuteHook p s).skip then .error (.next (preExecuteHook p s).state)
      else fetchStage p dec (preExecuteHook p s).state

/-- All seven stages, stage 6 running what was decoded (R73). -/
def stepWith (p : Params) (dec : Word → Except DecodeError α) (runIt : α → State → StepResult) (s : State) : StepResult :=
  match beginStep p dec s with
  | .error outcome => outcome
  | .ok (i, s') => runIt i s'

/-- `step()` of an engine of configuration `c`: its registry decodes, and its definitions' guards and base behaviours run,
appended definitions and attached guards like any other (R60 to R66, 30_encoding.md R55). -/
def stepIn (c : Configuration) : State → StepResult := stepWith c.toParams (decodeIn c.registry) (runDecoded c.toParams)

/-- The word stored where the next fetch reads, if that is a cell of memory (log 30). -/
def placeAtIp (s : State) (w : Word) : State := if inMemory reference s.ip then s.setCell s.ip w else s

end Sys2Proof.Machine
end

