-- ==== Sys2Proof/Machine/Dispatch.lean ====
section
/-! DEFINITION. Stage 6 of a step: the decoded instruction, after the advance of `x[7]` (40_step_cycle.md rule R73). -/

namespace Sys2Proof.Machine

def exec (i : Instr) (s : State) : Host.Outcome State Fault Refusal :=
  match i with
  | .halt u0 u1 u2 => Sys2Proof.Machine.execHalt u0 u1 u2 s
  | .unreachable u0 u1 u2 => Sys2Proof.Machine.execUnreachable u0 u1 u2 s
  | .read rd u1 u2 => Sys2Proof.Machine.execRead rd u1 u2 s
  | .write src u1 u2 => Sys2Proof.Machine.execWrite src u1 u2 s
  | .move rd src u2 => Sys2Proof.Machine.execMove rd src u2 s
  | .loadLiteral rd lit u2 => Sys2Proof.Machine.execLoadLiteral rd lit u2 s
  | .cmove rd src cond => Sys2Proof.Machine.execCmove rd src cond s
  | .add rd a b => Sys2Proof.Machine.execAdd rd a b s
  | .sub rd a b => Sys2Proof.Machine.execSub rd a b s
  | .mul rd a b => Sys2Proof.Machine.execMul rd a b s
  | .div rd a b => Sys2Proof.Machine.execDiv rd a b s
  | .and rd a b => Sys2Proof.Machine.execAnd rd a b s
  | .or rd a b => Sys2Proof.Machine.execOr rd a b s
  | .xor rd a b => Sys2Proof.Machine.execXor rd a b s
  | .not rd a u2 => Sys2Proof.Machine.execNot rd a u2 s
  | .shl rd a b => Sys2Proof.Machine.execShl rd a b s
  | .shr rd a b => Sys2Proof.Machine.execShr rd a b s
  | .load rd addr u2 => Sys2Proof.Machine.execLoad rd addr u2 s
  | .store value addr u2 => Sys2Proof.Machine.execStore value addr u2 s
  | .configureTraps u0 u1 u2 => Sys2Proof.Machine.execConfigureTraps u0 u1 u2 s
  | .enterUserMode u0 u1 u2 => Sys2Proof.Machine.execEnterUserMode u0 u1 u2 s
  | .syscall num u1 u2 => Sys2Proof.Machine.execSyscall num u1 u2 s

end Sys2Proof.Machine
end

