-- ==== Sys2Proof/Machine/Step.lean ====
section
/-! DEFINITION. One step of the engine of the reference configuration (40_step_cycle.md rules R68 to R74); it is `stepIn` of
Cycle.lean at that configuration, its decoded instructions run through `exec`. `Done(halted)` is a next state whose `report`
is unchanged; `Error(kind)` is a next state whose `report` is the kind (log 25). -/

namespace Sys2Proof.Machine

/-- `step()`: the stages before execution, then the decoded instruction. -/
def step (s : State) : Host.Outcome State Fault Refusal := stepWith reference decode exec s

/-- `s` with the instruction word stored where `step` fetches next, at `x[7]` (log 30). -/
def State.withFetchWord (s : State) (nbits w : Nat) : State := placeAtIp s (tableWord nbits w)

end Sys2Proof.Machine
end

