-- ==== Sys2Proof/Machine/Boot.lean ====
section
/-! DEFINITION. Reset with a boot image and a payload (70_reset_and_hazards.md rules R150 to R152), the big-endian
serialisation of a word (20_memory.md rule R32), and what the host may do between steps (60_exceptions.md rule R147). -/

namespace Sys2Proof.Machine

/-- The four bytes of a Word, most significant first (20_memory.md R32). -/
def wordToBytes (w : Word) : List Byte := [w.extractLsb' 24 8, w.extractLsb' 16 8, w.extractLsb' 8 8, w.extractLsb' 0 8]

/-- The Word of four bytes, most significant first (20_memory.md R32). -/
def wordOfBytes (b0 b1 b2 b3 : Byte) : Word := b0 ++ b1 ++ b2 ++ b3

/-- `Frame(P)`: the 2-byte count, then each word's four bytes (70_reset_and_hazards.md R152). -/
def frame (payload : List Word) : List Byte :=
  let n := BitVec.ofNat 16 payload.length
  [n.extractLsb' 8 8, n.extractLsb' 0 8] ++ payload.flatMap wordToBytes

/-- Why a launch is refused (70_reset_and_hazards.md R151, R152; D22, log 22). -/
inductive LaunchRefusal where
  /-- the boot image is longer than `KERNEL_WORDS` -/
  | bootImageTooLong
  /-- the payload is longer than 65535 words -/
  | payloadTooLong
deriving DecidableEq, Repr

/-- `Reset(BOOT_IMAGE, PAYLOAD, further_input)` (70_reset_and_hazards.md R150), with the host's choice of `in_eof`
(10_state.md R26). The registry is the configuration's, already built. -/
def boot (p : Params) (further : List Byte) (eof : Bool) : Except LaunchRefusal State :=
  if p.kernelWords < p.bootImage.length then .error .bootImageTooLong
  else if Config.maxPayloadWords < p.payload.length then .error .payloadTooLong
  else .ok { State.reset with
    mem := Memory.setAll [] 0 p.bootImage
    inQueue := frame p.payload ++ further
    inEof := eof }

/-- The host appends bytes at the tail of the input queue (10_state.md R21, 20_memory.md R44); a source that has said it
will supply no more bytes takes none (log 28). -/
def hostAppend (bytes : List Byte) (s : State) : Option State :=
  if s.inEof then none else some (s.setInQueue (s.inQueue ++ bytes))

end Sys2Proof.Machine
end

