-- ==== Sys2Proof/Safety.lean ====
section
/-! DEFINITION. The terms in which claims speak of runs: the invariant every step keeps, several steps in a row, what a step
fetches, and which parts of two states agree. -/

namespace Sys2Proof.Machine

/-! ## Invariant -/

/-- Memory is in its canonical form, and an error has been reported only by a step that halted the engine
(60_exceptions.md R133; logs 25, 27). -/
abbrev State.inv (p : Params) (s : State) : Prop := s.mem.wf p.memWords ∧ (s.report.isSome = true → s.halted = true)

/-! ## Runs -/

/-- `n` steps in a row, stopping at the first fault or refusal (40_step_cycle.md R77). -/
def steps : Nat → State → StepResult
  | 0, s => .next s
  | n + 1, s =>
    match step s with
    | .next t => steps n t
    | .fault f => .fault f
    | .refused r => .refused r

/-- The pre-execute hook lets the step from `s` go on, leaving `s1`: nothing happens in KERNEL mode, the counter goes up in
USER mode, and the timer does not fire (60_exceptions.md R126). -/
abbrev State.hookPasses (p : Params) (s s1 : State) : Prop :=
  (s.mode = .kernel ∧ s1 = s) ∨
  (s.mode = .user ∧ p.timerFires (s.counter + 1) p.timerThreshold = false ∧ s1 = s.setCounter (s.counter + 1))

/-- The word at the instruction pointer is in memory and decodes to `i` (40_step_cycle.md R70, R71). -/
abbrev State.fetches (s : State) (i : Instr) : Prop := inMemory reference s.ip = true ∧ decode (s.cell s.ip) = .ok i

/-! ## The trap cells (10_state.md R19) -/

/-- The cells trap delivery and `syscall` write. -/
abbrev State.isTrapCell (s : State) (a : Word) : Prop :=
  a = s.trapCfg.retCell ∨ a = s.trapCfg.reasonCell ∨ a = s.trapCfg.sysnoCell

/-- Both cells trap delivery writes lie in memory, so that it cannot fail (60_exceptions.md R138). -/
abbrev State.trapCellsInMemory (p : Params) (s : State) : Prop :=
  inMemory p s.trapCfg.retCell = true ∧ inMemory p s.trapCfg.reasonCell = true

/-! ## What two states agree on -/

abbrev sameCells (s t : State) : Prop := ∀ a : Word, t.cell a = s.cell a

/-- Every register but those in the list. -/
abbrev sameRegsExcept (rs : List Reg) (s t : State) : Prop := ∀ q : Reg, q ∉ rs → t.reg q = s.reg q

abbrev sameDevices (s t : State) : Prop := t.inQueue = s.inQueue ∧ t.inEof = s.inEof ∧ t.outLog = s.outLog

abbrev sameHaltState (s t : State) : Prop := t.halted = s.halted ∧ t.report = s.report

/-- The preemption counter, the stash and the trap configuration. -/
abbrev sameKernelState (s t : State) : Prop := t.counter = s.counter ∧ t.stash = s.stash ∧ t.trapCfg = s.trapCfg

/-! ## The ip-write gate -/

/-- The ip-write gate lets the value through (60_exceptions.md R131): it stops only a USER-mode write of register 7 with a
value outside the user region. -/
abbrev ipWriteAllowed (s : State) (rd : Reg) (v : Word) : Prop :=
  s.mode = .user → rd = ipReg → inBounds reference v = true

end Sys2Proof.Machine

namespace Sys2Proof

/-! ## Classes of instructions -/

/-- The thirteen data instructions (41_data_instructions.md). -/
def Instr.isData : Instr → Bool
  | .move _ _ _ | .loadLiteral _ _ _ | .cmove _ _ _ | .add _ _ _ | .sub _ _ _ | .mul _ _ _ | .div _ _ _ | .and _ _ _
  | .or _ _ _ | .xor _ _ _ | .not _ _ _ | .shl _ _ _ | .shr _ _ _ => true
  | .halt _ _ _ | .unreachable _ _ _ | .read _ _ _ | .write _ _ _ | .load _ _ _ | .store _ _ _ | .configureTraps _ _ _
  | .enterUserMode _ _ _ | .syscall _ _ _ => false

/-- The six privileged instructions (60_exceptions.md R129). -/
def Instr.isPrivileged : Instr → Bool
  | .halt _ _ _ | .unreachable _ _ _ | .read _ _ _ | .write _ _ _ | .configureTraps _ _ _ | .enterUserMode _ _ _ => true
  | .move _ _ _ | .loadLiteral _ _ _ | .cmove _ _ _ | .add _ _ _ | .sub _ _ _ | .mul _ _ _ | .div _ _ _ | .and _ _ _
  | .or _ _ _ | .xor _ _ _ | .not _ _ _ | .shl _ _ _ | .shr _ _ _ | .load _ _ _ | .store _ _ _ | .syscall _ _ _ => false

/-- `syscall`. -/
def Instr.isSyscall : Instr → Bool
  | .syscall _ _ _ => true
  | .halt _ _ _ | .unreachable _ _ _ | .read _ _ _ | .write _ _ _ | .configureTraps _ _ _ | .enterUserMode _ _ _
  | .move _ _ _ | .loadLiteral _ _ _ | .cmove _ _ _ | .add _ _ _ | .sub _ _ _ | .mul _ _ _ | .div _ _ _ | .and _ _ _
  | .or _ _ _ | .xor _ _ _ | .not _ _ _ | .shl _ _ _ | .shr _ _ _ | .load _ _ _ | .store _ _ _ => false

/-- The instruction itself writes register 7: register 7 is its destination, or it is `enter-user-mode`. -/
def Instr.writesIp : Instr → Bool
  | .read rd _ _ | .move rd _ _ | .loadLiteral rd _ _ | .cmove rd _ _ | .add rd _ _ | .sub rd _ _ | .mul rd _ _
  | .div rd _ _ | .and rd _ _ | .or rd _ _ | .xor rd _ _ | .not rd _ _ | .shl rd _ _ | .shr rd _ _ | .load rd _ _ =>
    rd == .reg ipReg
  | .enterUserMode _ _ _ => true
  | .halt _ _ _ | .unreachable _ _ _ | .write _ _ _ | .store _ _ _ | .configureTraps _ _ _ | .syscall _ _ _ => false

/-- The gate of `i` takes the trap of that reason in place of `i`, in USER mode and after the advance (60_exceptions.md R129 to
R131): a privileged instruction; a `load` or `store` whose address is outside the user region; a data instruction that would
write register 7 with a value outside it. -/
abbrev Instr.gateFires (i : Instr) (s : Machine.State) (r : Machine.Reason) : Prop :=
  (r = .illegalInstruction ∧ i.isPrivileged = true) ∨
  (r = .outOfBounds ∧ (i.mnemonic = .load ∨ i.mnemonic = .store) ∧
    ∃ a, Machine.effectiveAddress i.args.2.1 s = .ok a ∧ Machine.inBounds Machine.reference a = false) ∨
  (r = .outOfBounds ∧ i.isData = true ∧ i.args.1 = .reg ipReg ∧
    ∃ v, Machine.dataResult i.mnemonic i.args.2.1 i.args.2.2 s = .ok (some v) ∧
      Machine.inBounds Machine.reference v = false)

end Sys2Proof
end

