-- ==== Sys2Proof/Certificates/Slice0/Obligations.lean ====
section
/-! DEFINITION. The statements for the provers. Each docstring names the rules of spec/ it formalises; "spec decision D<n>"
names a row of 92_eei_decisions.md, which is the spec's own choice and not the source's. -/

open Sys2Proof Sys2Proof.Machine

/-! ## Encoding, registry, guard chain -/

/-- Words written out from the encodings of 30_encoding.md R52 decode to their instructions (opcode numbers: spec decision
D3; vectors V3, V6, V9, V13, V68, V84, V88, V102, V105 and S1 of 95_test_vectors.md). -/
def Obligations.KnownWordsDecode : Prop :=
  decode 0x00FFFFFF = .ok (.halt (.imm 127) (.imm 127) (.imm 127)) ∧
  decode 0x03060000 = .ok (.write (.reg 6) (.reg 0) (.reg 0)) ∧
  decode 0x04070200 = .ok (.move (.reg 7) (.reg 2) (.reg 0)) ∧
  decode 0x0501FF00 = .ok (.loadLiteral (.reg 1) (.imm 127) (.reg 0)) ∧
  decode 0x06078201 = .ok (.cmove (.reg 7) (.imm 2) (.reg 1)) ∧
  decode 0x07070783 = .ok (.add (.reg 7) (.reg 7) (.imm 3)) ∧
  decode 0x1103E400 = .ok (.load (.reg 3) (.imm 100) (.reg 0)) ∧
  decode 0x12FF0200 = .ok (.store (.imm 127) (.reg 2) (.reg 0)) ∧
  decode 0x14000000 = .ok (.enterUserMode (.reg 0) (.reg 0) (.reg 0)) ∧
  decode 0x15060000 = .ok (.syscall (.reg 6) (.reg 0) (.reg 0))

/-- R59: decoding an encoded instruction recovers it, every argument at every value its kind admits and the unused bytes as
they are; and decode keeps the opcode and the three bytes exactly as fetched, so that encoding its answer gives the word
back. -/
def Obligations.DecodeAndEncodeAgree : Prop :=
  (∀ i : Instr, i.wellFormed = true → decode (encode i) = .ok i) ∧
  (∀ (w : Word) (i : Instr), decode w = .ok i → encode i = w)

/-- R64, over any registry: an opcode at or beyond its length is unknown; else the definition's validator decides; decode
answers the definition and the three arguments. -/
def Obligations.DecodeFollowsTheRegistry : Prop :=
  ∀ (G B : Type) (r : Registry G B) (w : Word),
    let a0 := Arg.ofByte w.arg0Field
    let a1 := Arg.ofByte w.arg1Field
    let a2 := Arg.ofByte w.arg2Field
    (r.length ≤ w.opcodeField.toNat → decodeIn r w = .error .unknownOpcode) ∧
    ∀ d, r[w.opcodeField.toNat]? = some d →
      (d.accepts a0 a1 a2 = true → decodeIn r w = .ok ⟨d, a0, a1, a2⟩) ∧
      (d.accepts a0 a1 a2 = false → decodeIn r w = .error .badArguments)

/-- 30_encoding.md R50, R52: what the decoder answers has arguments of the kinds its row declares, so that no behaviour of
the reference registry resolves a byte in 8 to 127; and every opcode below 22 is some instruction's. -/
def Obligations.DecodedIsWellFormed : Prop :=
  (∀ (w : Word) (i : Instr), decode w = .ok i → i.wellFormed = true) ∧
  (∀ w : Word, decode w = .error .unknownOpcode ↔ 22 ≤ w.opcodeField.toNat)

/-- R60, R61, over any registry: `register` appends exactly the one definition and answers the number of definitions before
it, moving nothing; `attach` puts the guard at the head of one definition's chain and changes no other definition, nor that
one's name, validator or base behaviour; and the guard at the head runs first, the rest of the definition after it. -/
def Obligations.RegisterAppendsAndAttachLayers : Prop :=
  (∀ (G B : Type) (r : Registry G B) (d : Definition G B),
    (r.register d).2 = r.length ∧ (r.register d).1.length = r.length + 1 ∧
    (r.register d).1[(r.register d).2]? = some d ∧ ∀ k, k < r.length → (r.register d).1[k]? = r[k]?) ∧
  (∀ (G B : Type) (r : Registry G B) (op : Nat) (g : G) (d : Definition G B), r[op]? = some d →
    (r.attach op g).length = r.length ∧
    (r.attach op g)[op]? = some ⟨d.name, d.validator, g :: d.guards, d.base⟩ ∧
    (∀ k, k ≠ op → (r.attach op g)[k]? = r[k]?)) ∧
  (∀ (p : Params) (d : Definition InterceptionGuard Behaviour) (g : InterceptionGuard) (a0 a1 a2 : Arg) (s : State),
    (g p a0 a1 a2 s).error = none → (g p a0 a1 a2 s).skip = false →
    runDecoded p ⟨⟨d.name, d.validator, g :: d.guards, d.base⟩, a0, a1, a2⟩ s =
      runDecoded p ⟨d, a0, a1, a2⟩ (g p a0 a1 a2 s).state)

/-- R65, R66: an error ends the chain and halts the engine, whatever skip says; else a skip ends it and the step completes;
else the rest of the chain runs, and after the last guard the base behaviour. Effects made by a guard stand. An
error that the guard returned is reported as `GuardError` of it (60_exceptions.md R133); one that a primitive it used raised,
as that primitive's. (That a returned error is a text is the model's choice, log 35.) -/
def Obligations.GuardChainRunsInOrder : Prop :=
  ∀ (g : Guard) (gs : List Guard) (base : State → StepResult) (s : State),
    runChain [] base s = base s ∧
    (∀ e, (g s).error = some (.returned e) → runChain (g :: gs) base s = .next ((g s).state.raise (.guardError e))) ∧
    ((g s).error = some .dataBounds → runChain (g :: gs) base s = .next ((g s).state.raise .dataBounds)) ∧
    ((g s).error = some .invalidOperand → runChain (g :: gs) base s = .next ((g s).state.raise .invalidOperand)) ∧
    ((g s).error = none → (g s).skip = true → runChain (g :: gs) base s = .next (g s).state) ∧
    ((g s).error = none → (g s).skip = false → runChain (g :: gs) base s = runChain gs base (g s).state)

/-- R47: how an argument byte is read. -/
def Obligations.ArgumentByteMeaning : Prop :=
  ∀ b : Byte,
    (∀ r : Reg, b.toNat = r.val → Arg.ofByte b = .reg r) ∧
    (8 ≤ b.toNat → b.toNat < 128 → ∃ n, Arg.ofByte b = .invalid n) ∧
    (128 ≤ b.toNat → ∃ v, Arg.ofByte b = .imm v ∧ (immWord v).toNat = b.toNat - 128)

/-- 30_encoding.md R48: `resolve` of a byte; its third arm is spec decision D19. -/
def Obligations.ResolveOfAByte : Prop :=
  ∀ (b : Byte) (s : State),
    (∀ r : Reg, b.toNat = r.val → resolve (Arg.ofByte b) s = .ok (s.reg r)) ∧
    (8 ≤ b.toNat → b.toNat < 128 → resolve (Arg.ofByte b) s = .error .invalidOperand) ∧
    (128 ≤ b.toNat → resolve (Arg.ofByte b) s = .ok (BitVec.ofNat 32 (b.toNat - 128)))

/-! ## Registers and memory -/

/-- 10_state.md R13: no register is hard-wired and none is banked: every register reads back what was written, in either
mode, and no other one changes. -/
def Obligations.RegistersReadBack : Prop :=
  ∀ (s : State) (r : Reg) (v : Word),
    (s.setReg r v).reg r = v ∧ (∀ q, q ≠ r → (s.setReg r v).reg q = s.reg q) ∧
    ∀ m, (s.setMode m).reg r = s.reg r

/-- 20_memory.md R40, for any memory size: a read returns the latest write to that cell, and a write changes no other cell;
an address names a cell exactly where it is below `MEM_WORDS` (R31). The canonical form is a premise: it is the invariant of
`EveryStepKeepsTheInvariant`. -/
def Obligations.MemoryReadsBack : Prop :=
  ∀ (p : Params) (s : State) (a v : Word), s.mem.wf p.memWords →
    (s.setCell a v).cell a = v ∧ (∀ b, b ≠ a → (s.setCell a v).cell b = s.cell b) ∧
    (inMemory p a = true ↔ a.toNat < p.memWords) ∧
    (inMemory p a = true → (s.setCell a v).mem.wf p.memWords)

/-- The model's choice (log 27): two memories in canonical form that read alike are the same data. -/
def Obligations.CanonicalMemoryIsDeterminedByReads : Prop :=
  ∀ (words : Nat) (m n : Memory), m.wf words → n.wf words → (∀ a, a < words → m.get a = n.get a) → m = n

/-! ## Data instructions (41_data_instructions.md; results by spec decisions D3 and D4) -/

/-- R81, R82: `move` and `loadLiteral` complete and write the source's value. -/
def Obligations.MoveAndLoadLiteralResults : Prop :=
  ∀ (s : State) (rd : Reg) (u : Arg),
    (∀ src v, resolve src s = .ok v → ipWriteAllowed s rd v →
      exec (.move (.reg rd) src u) s = .next (s.setReg rd v)) ∧
    (∀ lit : BitVec 7, ipWriteAllowed s rd (BitVec.ofNat 32 lit.toNat) →
      exec (.loadLiteral (.reg rd) (.imm lit) u) s = .next (s.setReg rd (BitVec.ofNat 32 lit.toNat)))

/-- R83 (spec decision D12 for the zero condition): `cmove` writes the source's value where the whole 32-bit condition is
not zero, and does nothing where it is zero, in either mode and for every destination. -/
def Obligations.CmoveResult : Prop :=
  ∀ (s : State) (rd : Reg) (src cond : Arg) (v c : Word), resolve src s = .ok v → resolve cond s = .ok c →
    (c ≠ 0 → ipWriteAllowed s rd v → exec (.cmove (.reg rd) src cond) s = .next (s.setReg rd v)) ∧
    (c = 0 → exec (.cmove (.reg rd) src cond) s = .next s)

/-- R84 to R86: `add`, `sub` and `mul` complete and write the result modulo 2^32. -/
def Obligations.AddSubMulResults : Prop :=
  ∀ (s : State) (rd : Reg) (a b : Arg) (x y : Word), resolve a s = .ok x → resolve b s = .ok y →
    (∀ v, v = BitVec.ofNat 32 (x.toNat + y.toNat) → ipWriteAllowed s rd v →
      exec (.add (.reg rd) a b) s = .next (s.setReg rd v)) ∧
    (∀ v, v = BitVec.ofInt 32 ((x.toNat : Int) - (y.toNat : Int)) → ipWriteAllowed s rd v →
      exec (.sub (.reg rd) a b) s = .next (s.setReg rd v)) ∧
    (∀ v, v = BitVec.ofNat 32 (x.toNat * y.toNat) → ipWriteAllowed s rd v →
      exec (.mul (.reg rd) a b) s = .next (s.setReg rd v))

/-- R87 and 60_exceptions.md R132 (spec decisions D4, D5): `div` writes the floor of the unsigned quotient; a zero divisor
halts the engine with `DivideByZeroError` and writes nothing, in either mode and for every destination. -/
def Obligations.DivResult : Prop :=
  ∀ (s : State) (rd : Reg) (a b : Arg) (n d : Word), resolve a s = .ok n → resolve b s = .ok d →
    (∀ v, d ≠ 0 → v = BitVec.ofNat 32 (n.toNat / d.toNat) → ipWriteAllowed s rd v →
      exec (.div (.reg rd) a b) s = .next (s.setReg rd v)) ∧
    (d = 0 → exec (.div (.reg rd) a b) s = .next (s.raise .divideByZero))

/-- R88 to R91: bit `k` of the result of `and`, `or`, `xor`, `not` from bit `k` of the operands. -/
def Obligations.BitwiseResults : Prop :=
  ∀ (s : State) (rd : Reg) (a b u : Arg) (x y v : Word), resolve a s = .ok x → resolve b s = .ok y →
    ipWriteAllowed s rd v →
    ((∀ k, k < 32 → v.getLsbD k = (x.getLsbD k && y.getLsbD k)) → exec (.and (.reg rd) a b) s = .next (s.setReg rd v)) ∧
    ((∀ k, k < 32 → v.getLsbD k = (x.getLsbD k || y.getLsbD k)) → exec (.or (.reg rd) a b) s = .next (s.setReg rd v)) ∧
    ((∀ k, k < 32 → v.getLsbD k = (x.getLsbD k != y.getLsbD k)) → exec (.xor (.reg rd) a b) s = .next (s.setReg rd v)) ∧
    ((∀ k, k < 32 → v.getLsbD k = !(x.getLsbD k)) → exec (.not (.reg rd) a u) s = .next (s.setReg rd v))

/-- R92, R93 (spec decision D4): shifts by the whole 32-bit amount, logical, 0 from 32 on. -/
def Obligations.ShiftResults : Prop :=
  ∀ (s : State) (rd : Reg) (a b : Arg) (x n : Word), resolve a s = .ok x → resolve b s = .ok n →
    (∀ v, (n.toNat < 32 → v = BitVec.ofNat 32 (x.toNat * 2 ^ n.toNat)) → (32 ≤ n.toNat → v = 0) → ipWriteAllowed s rd v →
      exec (.shl (.reg rd) a b) s = .next (s.setReg rd v)) ∧
    (∀ v, (n.toNat < 32 → v = BitVec.ofNat 32 (x.toNat / 2 ^ n.toNat)) → (32 ≤ n.toNat → v = 0) → ipWriteAllowed s rd v →
      exec (.shr (.reg rd) a b) s = .next (s.setReg rd v))

/-- 60_exceptions.md R131 (spec decisions D12, D13): a USER-mode data instruction that would write register 7 with a value
outside the user region takes the OUT_OF_BOUNDS trap in its place. -/
def Obligations.IpWriteGateTraps : Prop :=
  ∀ (i : Instr) (s : State) (v : Word), i.isData = true → s.mode = .user → i.args.1 = .reg ipReg →
    dataResult i.mnemonic i.args.2.1 i.args.2.2 s = .ok (some v) → inBounds reference v = false →
    exec i s = (deliverTrap reference .outOfBounds s).result

/-- The frame of the thirteen data instructions where no trap is taken (R80): the destination register, and the halt state
of a `div` by zero, are all that may change. -/
def Obligations.DataFrame : Prop :=
  ∀ (i : Instr) (s t : State), i.isData = true → i.wellFormed = true → exec i s = .next t → t.mode = s.mode →
    (∀ q, i.args.1 ≠ .reg q → t.reg q = s.reg q) ∧ sameCells s t ∧ sameKernelState s t ∧ sameDevices s t ∧
    (sameHaltState s t ∨ (i.mnemonic = .div ∧ t.halted = true ∧ t.report = some .divideByZero))

/-! ## Memory instructions (42_memory_instructions.md) -/

/-- R101 (operand order: spec decision D3; register 7 unchecked: D23): `load` writes the cell's word to its destination,
register 7 included, unchecked. -/
def Obligations.LoadResult : Prop :=
  ∀ (s : State) (rd : Reg) (addr u : Arg) (ea : Word), effectiveAddress addr s = .ok ea → ea.toNat < 2048 →
    (s.mode = .user → inBounds reference ea = true) → exec (.load (.reg rd) addr u) s = .next (s.setReg rd (s.cell ea))

/-- R102: `store` writes its value to the cell at its address, and nothing else. -/
def Obligations.StoreResult : Prop :=
  ∀ (s : State) (value addr u : Arg) (v ea : Word), s.mem.wf reference.memWords → resolve value s = .ok v →
    effectiveAddress addr s = .ok ea → ea.toNat < 2048 → (s.mode = .user → inBounds reference ea = true) →
    ∃ t, exec (.store value addr u) s = .next t ∧ t.cell ea = v ∧ t = s.setCell ea v

/-- 60_exceptions.md R130 and the comparator of 20_memory.md R38. In USER mode an address outside the user region takes the
OUT_OF_BOUNDS trap in place of the access of `load` and `store`; in bounds, or in KERNEL mode whatever the address, the gate
passes. The user region is `[USER_BASE, USER_LIMIT)`, addresses 1024 to 2047 in the reference configuration. -/
def Obligations.AddressGate : Prop :=
  (∀ (p : Params) (a : Word), inBounds p a = true ↔ p.userBase ≤ a.toNat ∧ a.toNat < p.userLimit) ∧
  (∀ a : Word, inBounds reference a = true ↔ 1024 ≤ a.toNat ∧ a.toNat < 2048) ∧
  (∀ (s : State) (a0 addr u : Arg) (ea : Word), effectiveAddress addr s = .ok ea →
    (s.mode = .user → inBounds reference ea = false →
      exec (.load a0 addr u) s = (deliverTrap reference .outOfBounds s).result ∧
      exec (.store a0 addr u) s = (deliverTrap reference .outOfBounds s).result) ∧
    ((s.mode = .kernel ∨ inBounds reference ea = true) → addrGate reference addr s = .pass s)) ∧
  registry.guardsOf .load = [.address] ∧ registry.guardsOf .store = [.address]

/-- 20_memory.md R31 (spec decision D8): a KERNEL-mode access at or beyond the end of memory halts the engine with
`DataBoundsError` and reads or writes nothing. -/
def Obligations.KernelAccessOutsideMemory : Prop :=
  ∀ (s : State) (rd : Reg) (value addr u : Arg) (v ea : Word), s.mode = .kernel → resolve value s = .ok v →
    effectiveAddress addr s = .ok ea → 2048 ≤ ea.toNat →
    exec (.load (.reg rd) addr u) s = .next (s.raise .dataBounds) ∧
    exec (.store value addr u) s = .next (s.raise .dataBounds)

/-- The frame of `load` and `store` where no trap is taken. `load` stores nothing and changes only its destination register;
`store` changes no register and only the cell at the address `effectiveAddress` gives. -/
def Obligations.LoadAndStoreFrame : Prop :=
  ∀ (a0 addr u : Arg) (s t : State), t.mode = s.mode →
    (exec (.load a0 addr u) s = .next t → Instr.wellFormed (.load a0 addr u) = true →
      (∀ q, a0 ≠ .reg q → t.reg q = s.reg q) ∧ sameCells s t ∧ sameKernelState s t ∧ sameDevices s t ∧
      (sameHaltState s t ∨ (t.halted = true ∧ t.report = some .dataBounds))) ∧
    (exec (.store a0 addr u) s = .next t → Instr.wellFormed (.store a0 addr u) = true →
      sameRegsExcept [] s t ∧ (∀ ea, effectiveAddress addr s = .ok ea → ∀ a, a ≠ ea → t.cell a = s.cell a) ∧
      sameKernelState s t ∧ sameDevices s t ∧
      (sameHaltState s t ∨ (t.halted = true ∧ t.report = some .dataBounds ∧ sameCells s t)))

/-! ## Device and halt instructions (43_device_and_halt.md) -/

/-- 60_exceptions.md R129: in USER mode each of the six privileged instructions takes the ILLEGAL_INSTRUCTION trap in place
of its effect, whatever its arguments; in KERNEL mode the gate passes; no other definition carries it. -/
def Obligations.PrivilegedGate : Prop :=
  (∀ (i : Instr) (s : State), i.isPrivileged = true → s.mode = .user →
    exec i s = (deliverTrap reference .illegalInstruction s).result) ∧
  (∀ s : State, s.mode = .kernel → privGate reference s = .pass s) ∧
  (∀ i : Instr, (.privileged ∈ registry.guardsOf i.mnemonic) ↔ i.isPrivileged = true)

/-- R106 (spec decisions D7, D15): in KERNEL mode `read` takes the head byte, zero-extended, into its destination; on an
empty queue it aborts where the source has ended and holds where it is open. -/
def Obligations.ReadResult : Prop :=
  ∀ (s : State) (rd : Reg) (u1 u2 : Arg), s.mode = .kernel →
    (∀ b q, s.inQueue = b :: q →
      exec (.read (.reg rd) u1 u2) s = .next ((s.setInQueue q).setReg rd (BitVec.ofNat 32 b.toNat))) ∧
    (s.inQueue = [] → s.inEof = true → exec (.read (.reg rd) u1 u2) s = .fault .deviceAbort) ∧
    (s.inQueue = [] → s.inEof = false → exec (.read (.reg rd) u1 u2) s = .fault .inputHold)

/-- R107 (spec decision D7): in KERNEL mode `write` appends the low 8 bits of its source to the output. That it completes in
every KERNEL-mode state rests on the output never failing in a model: spec decision D15 (log 15, unsafe for the output). -/
def Obligations.WriteResult : Prop :=
  ∀ (s : State) (src u1 u2 : Arg) (v : Word), s.mode = .kernel → resolve src s = .ok v →
    exec (.write src u1 u2) s = .next (s.appendOut (BitVec.ofNat 8 (v.toNat % 256)))

/-- R108: in KERNEL mode `halt` sets the halted flag and changes nothing else, with no error; in USER mode it traps and the
engine does not halt. The all-zero word is `halt`. -/
def Obligations.HaltResult : Prop :=
  (∀ (s : State) (u0 u1 u2 : Arg),
    (s.mode = .kernel → ∃ t, exec (.halt u0 u1 u2) s = .next t ∧ t.halted = true ∧ t.report = s.report ∧
      t.mode = s.mode ∧ sameRegsExcept [] s t ∧ sameCells s t ∧ sameKernelState s t ∧ sameDevices s t) ∧
    (s.mode = .user → s.trapCellsInMemory reference → ∃ t, exec (.halt u0 u1 u2) s = .next t ∧
      deliverTrap reference .illegalInstruction s = .ok t ∧ sameHaltState s t)) ∧
  decode 0 = .ok (.halt (.reg 0) (.reg 0) (.reg 0))

/-- R109 (spec decision D6): in KERNEL mode `unreachable` halts the engine and reports `UnreachableError`, changing nothing
else. -/
def Obligations.UnreachableResult : Prop :=
  ∀ (s : State) (u0 u1 u2 : Arg), s.mode = .kernel →
    ∃ t, exec (.unreachable u0 u1 u2) s = .next t ∧ t.halted = true ∧ t.report = some .unreachable ∧
      t.mode = s.mode ∧ sameRegsExcept [] s t ∧ sameCells s t ∧ sameKernelState s t ∧ sameDevices s t

/-- The frame of `read` and `write` in KERNEL mode: `read` changes its destination and drops the head of the queue, `write`
changes the output only. -/
def Obligations.ReadAndWriteFrame : Prop :=
  ∀ (a0 u1 u2 : Arg) (s t : State), s.mode = .kernel →
    (exec (.read a0 u1 u2) s = .next t → Instr.wellFormed (.read a0 u1 u2) = true →
      (∀ q, a0 ≠ .reg q → t.reg q = s.reg q) ∧ sameCells s t ∧ t.mode = s.mode ∧ sameKernelState s t ∧
      sameHaltState s t ∧ (∃ b, s.inQueue = b :: t.inQueue) ∧ t.inEof = s.inEof ∧ t.outLog = s.outLog) ∧
    (exec (.write a0 u1 u2) s = .next t → Instr.wellFormed (.write a0 u1 u2) = true →
      sameRegsExcept [] s t ∧ sameCells s t ∧ t.mode = s.mode ∧ sameKernelState s t ∧ sameHaltState s t ∧
      (∃ b, t.outLog = s.outLog ++ [b]) ∧ t.inQueue = s.inQueue ∧ t.inEof = s.inEof)

/-! ## Kernel instructions (44_kernel_instructions.md) -/

/-- R113: in KERNEL mode `configure-traps` copies registers 0 to 3 into the trap configuration, unchecked, and changes no
register, no memory and not the mode; in USER mode it traps and the configuration is unchanged. -/
def Obligations.ConfigureTrapsEffect : Prop :=
  ∀ (s : State) (u0 u1 u2 : Arg),
    (s.mode = .kernel → ∃ t, exec (.configureTraps u0 u1 u2) s = .next t ∧
      t.trapCfg.handler = s.reg 0 ∧ t.trapCfg.sysnoCell = s.reg 1 ∧ t.trapCfg.reasonCell = s.reg 2 ∧
      t.trapCfg.retCell = s.reg 3 ∧ t.mode = s.mode ∧ sameRegsExcept [] s t ∧ sameCells s t ∧
      t.counter = s.counter ∧ t.stash = s.stash ∧ sameDevices s t ∧ sameHaltState s t) ∧
    (s.mode = .user → ∃ t, exec (.configureTraps u0 u1 u2) s = .next t ∧
      (deliverTrap reference .illegalInstruction s).result = .next t ∧ t.trapCfg = s.trapCfg)

/-- R114: in KERNEL mode `enter-user-mode` sets the mode to USER, register 7 to the old register 0 and register 0 to the
stash; it checks no target, and touches no other register, nor the counter, the stash, memory or the configuration. In USER
mode it traps. -/
def Obligations.EnterUserModeEffect : Prop :=
  ∀ (s : State) (u0 u1 u2 : Arg),
    (s.mode = .kernel → ∃ t, exec (.enterUserMode u0 u1 u2) s = .next t ∧ t.mode = .user ∧ t.ip = s.reg 0 ∧
      t.reg 0 = s.stash ∧ sameRegsExcept [0, ipReg] s t ∧ sameCells s t ∧ sameKernelState s t ∧ sameDevices s t ∧
      sameHaltState s t) ∧
    (s.mode = .user → exec (.enterUserMode u0 u1 u2) s = (deliverTrap reference .illegalInstruction s).result)

/-- R115 (argument read before the trap: spec decision D11): `syscall`, in either mode, with its cells in memory. The number
is written last, so it stands where cells coincide; the counter is decremented, wrapping. Canonical memory is a premise (the
invariant). -/
def Obligations.SyscallEffect : Prop :=
  ∀ (s : State) (num u1 u2 : Arg) (n : Word), s.mem.wf reference.memWords → s.trapCellsInMemory reference →
    s.trapCfg.sysnoCell.toNat < 2048 →
    resolve num s = .ok n →
    ∃ t, exec (.syscall num u1 u2) s = .next t ∧ t.mode = .kernel ∧ t.ip = s.trapCfg.handler ∧
      sameRegsExcept [ipReg] s t ∧ t.stash = s.reg 0 ∧ t.counter = s.counter - 1 ∧ t.trapCfg = s.trapCfg ∧
      t.cell s.trapCfg.sysnoCell = n ∧
      (s.trapCfg.reasonCell ≠ s.trapCfg.sysnoCell → t.cell s.trapCfg.reasonCell = 0) ∧
      (s.trapCfg.retCell ≠ s.trapCfg.sysnoCell → s.trapCfg.retCell ≠ s.trapCfg.reasonCell →
        t.cell s.trapCfg.retCell = s.ip) ∧
      (∀ a, ¬ s.isTrapCell a → t.cell a = s.cell a) ∧ sameDevices s t ∧ sameHaltState s t

/-! ## Traps and the timer (60_exceptions.md) -/

/-- R123, for any parameters: trap delivery with its cells in memory. The mode is KERNEL, register 7 the handler, the stash
the old register 0; the reason cell holds the code (R121), also where it coincides with the return-address cell, and the
return-address cell holds the old register 7; nothing else changes. Canonical memory is a premise (the invariant). -/
def Obligations.TrapDelivery : Prop :=
  ∀ (p : Params) (r : Reason) (s : State), s.mem.wf p.memWords → s.trapCfg.retCell.toNat < p.memWords →
    s.trapCfg.reasonCell.toNat < p.memWords →
    ∃ t, deliverTrap p r s = .ok t ∧ t.mode = .kernel ∧ t.ip = s.trapCfg.handler ∧ t.stash = s.reg 0 ∧
      t.cell s.trapCfg.reasonCell =
        (match r with | .syscall => 0 | .timer => 1 | .outOfBounds => 2 | .illegalInstruction => 3) ∧
      (s.trapCfg.retCell ≠ s.trapCfg.reasonCell → t.cell s.trapCfg.retCell = s.ip) ∧
      (∀ a, a ≠ s.trapCfg.retCell → a ≠ s.trapCfg.reasonCell → t.cell a = s.cell a) ∧
      sameRegsExcept [ipReg] s t ∧ t.counter = s.counter ∧ t.trapCfg = s.trapCfg ∧ sameHaltState s t ∧ sameDevices s t

/-- R138 (spec decision D8): a trap cell outside memory. Delivery stops with `DataBoundsError` at that write, the earlier
effects standing. Such a delivery ends the step in that error, the engine halted: where it came from the hook (R69), from a
guard, or from `syscall`; a `syscall` whose number cell alone is outside memory keeps the whole delivery and does not
decrement. (That the timer is due at 129 exactly: spec decisions D10, D24.) -/
def Obligations.TrapCellOutsideMemory : Prop :=
  (∀ (p : Params) (r : Reason) (s : State),
    (p.memWords ≤ s.trapCfg.retCell.toNat → deliverTrap p r s = .err .dataBounds (s.setMode .kernel)) ∧
    (s.trapCfg.retCell.toNat < p.memWords → p.memWords ≤ s.trapCfg.reasonCell.toNat →
      ∃ t, deliverTrap p r s = .err .dataBounds t ∧ t.mode = .kernel ∧ t.ip = s.trapCfg.handler ∧ t.stash = s.stash ∧
        (s.mem.wf p.memWords → t.cell s.trapCfg.retCell = s.ip) ∧
        ∀ a, a ≠ s.trapCfg.retCell → t.cell a = s.cell a) ∧
    (∀ e t, deliverTrap p r s = .err e t → e = .dataBounds)) ∧
  (∀ (s t : State) (e : HostError), s.halted = false → s.mode = .user → s.counter + 1 = 129 →
    deliverTrap reference .timer (s.setCounter (s.counter + 1)) = .err e t → step s = .next (t.raise e)) ∧
  (∀ (s s1 s2 : State) (i : Instr), s.halted = false → s.hookPasses reference s1 → s.fetches i →
    s2 = s1.setReg ipReg (s.ip + 1) →
    (∀ r e t, s.mode = .user → i.gateFires s2 r → deliverTrap reference r s2 = .err e t → step s = .next (t.raise e)) ∧
    (∀ num u1 u2 n, i = .syscall num u1 u2 → resolve num s2 = .ok n →
      (∀ e t, deliverTrap reference .syscall s2 = .err e t → step s = .next (t.raise e)) ∧
      (∀ t, deliverTrap reference .syscall s2 = .ok t → 2048 ≤ s.trapCfg.sysnoCell.toNat →
        step s = .next (t.raise .dataBounds))))

/-- R139 (spec decision D17): before `configure-traps` every trap writes through address 0 and jumps to address 0; the
reason ends in the cell, and the engine goes on in KERNEL mode. (Address 0 names a cell wherever memory is not empty.) -/
def Obligations.TrapBeforeConfiguration : Prop :=
  ∀ (p : Params) (r : Reason) (s : State), 0 < p.memWords → s.mem.wf p.memWords → s.trapCfg = ⟨0, 0, 0, 0⟩ →
    ∃ t, deliverTrap p r s = .ok t ∧ t.cell 0 = r.code ∧ t.ip = 0 ∧ t.mode = .kernel ∧ t.halted = s.halted ∧
      ∀ a, a ≠ 0 → t.cell a = s.cell a

/-- R126, R127, for any parameters: the pre-execute hook: a no-op in KERNEL mode; in USER mode the counter goes up, and
where `TIMER_FIRES` answers yes the TIMER trap is delivered, the counter reset and the step skipped. The only error is a
`DataBoundsError` of that delivery. In the reference configuration the timer fires exactly where the incremented counter is
129 (equality: spec decision D10; the threshold: D24). -/
def Obligations.PreExecuteHookBehaviour : Prop :=
  (∀ c : Word, reference.timerFires c reference.timerThreshold = true ↔ c = 129) ∧
  ∀ (p : Params) (s : State),
    (s.mode = .kernel → preExecuteHook p s = ⟨s, false, none⟩) ∧
    (s.mode = .user → p.timerFires (s.counter + 1) p.timerThreshold = false →
      preExecuteHook p s = ⟨s.setCounter (s.counter + 1), false, none⟩) ∧
    (s.mode = .user → p.timerFires (s.counter + 1) p.timerThreshold = true →
      (∀ t, deliverTrap p .timer (s.setCounter (s.counter + 1)) = .ok t →
        preExecuteHook p s = ⟨t.setCounter 0, true, none⟩) ∧
      (∀ e t, deliverTrap p .timer (s.setCounter (s.counter + 1)) = .err e t →
        e = .dataBounds ∧ (preExecuteHook p s).error = some e ∧ (preExecuteHook p s).state = t))

/-- The 129th USER-mode step (R124, R126, R128, R134): whatever the instruction pointer names, decodable or not, the step
ends in the TIMER trap; the return-address cell holds the pending instruction's own address and no register but 7 changes.
(That the threshold is tested by equality is spec decision D10, that it is 129 is D24.) -/
def Obligations.TimerStep : Prop :=
  ∀ s : State, s.halted = false → s.mode = .user → s.counter + 1 = 129 → s.mem.wf reference.memWords →
    s.trapCellsInMemory reference →
    ∃ t, step s = .next t ∧ t.mode = .kernel ∧ t.ip = s.trapCfg.handler ∧ t.cell s.trapCfg.reasonCell = 1 ∧
      (s.trapCfg.retCell ≠ s.trapCfg.reasonCell → t.cell s.trapCfg.retCell = s.ip) ∧
      (∀ a, a ≠ s.trapCfg.retCell → a ≠ s.trapCfg.reasonCell → t.cell a = s.cell a) ∧
      t.counter = 0 ∧ t.stash = s.reg 0 ∧ sameRegsExcept [ipReg] s t ∧ t.trapCfg = s.trapCfg ∧ sameDevices s t ∧
      sameHaltState s t

/-- R128: whatever memory holds, a run that starts in USER mode with counter 0 and has not left USER mode after `n` steps
has counted them all, and `n` is below 129: no program keeps the processor for 129 steps. (Equality: spec decision D10; the
threshold: D24.) -/
def Obligations.PreemptionBound : Prop :=
  ∀ (n : Nat) (s t : State), s.mode = .user → s.counter = 0 →
    (∀ k u, k ≤ n → steps k s = .next u → u.mode = .user) → steps n s = .next t →
    t.counter.toNat = n ∧ n < 129

/-! ## The step (40_step_cycle.md) -/

/-- R71 to R73: when the hook passes and the word at the instruction pointer decodes, the step runs what it decodes to, at
the state the hook left with register 7 advanced by 1: `exec` of the instruction in the reference configuration; in any
configuration, the guard chain and base behaviour of the definition its registry gives. -/
def Obligations.StepRunsTheDecodedInstruction : Prop :=
  (∀ (s s1 : State) (i : Instr), s.halted = false → s.hookPasses reference s1 → s.fetches i →
    step s = exec i (s1.setReg ipReg (s.ip + 1))) ∧
  (∀ (c : Configuration) (s s1 : State) (d : Decoded InterceptionGuard Behaviour), s.halted = false →
    s.hookPasses c.toParams s1 → s.ip.toNat < c.memWords → decodeIn c.registry (s.cell s.ip) = .ok d →
    stepIn c s = runDecoded c.toParams d (s1.setReg ipReg (s.ip + 1)))

/-- R68 (spec decision D14): a HALTED engine has no step, in any configuration. -/
def Obligations.HaltedEngineHasNoStep : Prop :=
  ∀ s : State, s.halted = true → step s = .refused .engineHalted ∧ ∀ c, stepIn c s = .refused .engineHalted

/-- R70, R71: where the instruction pointer names no cell of memory, or the word there does not decode, the engine halts and
reports the error; register 7 keeps the address; in USER mode the counter has gone up. The bound is the same in both modes,
and no trap is taken. First the reference configuration, then any. -/
def Obligations.FetchErrorsHaltTheEngine : Prop :=
  (∀ s s1 : State, s.halted = false → s.hookPasses reference s1 →
    (2048 ≤ s.ip.toNat → step s = .next (s1.raise .ipBounds)) ∧
    (∀ k, s.ip.toNat < 2048 → decode (s.cell s.ip) = .error k →
      step s = .next (s1.raise (.decode k)) ∧ (s1.raise (.decode k)).ip = s.ip)) ∧
  (∀ (c : Configuration) (s s1 : State), s.halted = false → s.hookPasses c.toParams s1 →
    (c.memWords ≤ s.ip.toNat → stepIn c s = .next (s1.raise .ipBounds)) ∧
    (∀ k, s.ip.toNat < c.memWords → decodeIn c.registry (s.cell s.ip) = .error k →
      stepIn c s = .next (s1.raise (.decode k))))

/-- R74: a step ends in `Done(true)` (halted, no error) exactly when its instruction is a `halt` whose base behaviour runs:
the engine is in KERNEL mode and fetches `halt`. -/
def Obligations.DoneHaltedExactlyByHalt : Prop :=
  ∀ s t : State, s.inv reference → step s = .next t →
    ((t.halted = true ∧ t.report = none) ↔ (s.mode = .kernel ∧ ∃ u0 u1 u2, s.fetches (.halt u0 u1 u2)))

/-- R76: after a step that ends in no error, register 7 is the old one plus 1 unless the instruction writes it or a trap was
taken; where a USER-mode step took a trap it is the handler's address, and likewise after a `syscall`. -/
def Obligations.InstructionPointerAfterAStep : Prop :=
  ∀ s t : State, s.inv reference → step s = .next t → t.report = none →
    (s.mode = .user → t.mode = .kernel → t.ip = s.trapCfg.handler) ∧
    (t.mode = s.mode → ∀ i, s.fetches i →
      (i.isSyscall = true → t.ip = s.trapCfg.handler) ∧
      (i.isSyscall = false → i.writesIp = false → t.ip = s.ip + 1))

/-- R42, R163: the word a KERNEL-mode `store` writes is the word the next step fetches, with nothing in between. -/
def Obligations.StoredWordIsFetched : Prop :=
  ∀ (s t : State) (value addr u : Arg) (w a : Word) (i : Instr), s.mem.wf reference.memWords →
    s.halted = false → s.mode = .kernel →
    resolve value s = .ok w → effectiveAddress addr s = .ok a → a.toNat < 2048 → s.ip = a →
    exec (.store value addr u) s = .next t → decode w = .ok i →
    step t = exec i (t.setReg ipReg (a + 1))

/-! ## Whole-machine rules -/

/-- R140: the initial mode is KERNEL; KERNEL to USER only by `enter-user-mode` executed in KERNEL mode; USER to KERNEL only
by a trap delivery: the TIMER's, at a counter that reaches 129 (spec decisions D10, D24), or, at the state the hook left
with register 7 advanced, that of the fetched instruction's gate or of the syscall gate. A delivery that fails (a trap cell
outside memory: R138, spec decision D8) has changed the mode and ends the step in its error. -/
def Obligations.ModeChangesOnlyAsStated : Prop :=
  State.reset.mode = .kernel ∧ ∀ s t : State, step s = .next t →
    (s.mode = .kernel → t.mode = .user → ∃ u0 u1 u2, s.fetches (.enterUserMode u0 u1 u2) ∧
      t = returnToUser (s.setReg ipReg (s.ip + 1))) ∧
    (s.mode = .user → t.mode = .kernel →
      (s.counter + 1 = 129 ∧ ∃ u,
        (deliverTrap reference .timer (s.setCounter (s.counter + 1)) = .ok u ∧ t = u.setCounter 0) ∨
        (deliverTrap reference .timer (s.setCounter (s.counter + 1)) = .err .dataBounds u ∧ t = u.raise .dataBounds)) ∨
      (s.counter + 1 ≠ 129 ∧ ∃ i s1, s.fetches i ∧ s1 = (s.setCounter (s.counter + 1)).setReg ipReg (s.ip + 1) ∧
        ((∃ r, i.gateFires s1 r ∧ (deliverTrap reference r s1).result = .next t) ∨
         (∃ num u1 u2 n, i = .syscall num u1 u2 ∧ resolve num s1 = .ok n ∧
           (syscallEffect reference n s1).result = .next t))))

/-- 10_state.md R18, R19: the trap configuration is written by nothing but a KERNEL-mode `configure-traps`; the stash by
nothing but trap delivery, which puts the then-current register 0 there and leaves KERNEL mode. -/
def Obligations.ControlStateWriters : Prop :=
  ∀ s t : State, step s = .next t →
    (t.trapCfg ≠ s.trapCfg → s.mode = .kernel ∧ ∃ u0 u1 u2, s.fetches (.configureTraps u0 u1 u2)) ∧
    (t.stash ≠ s.stash → t.stash = s.reg 0 ∧ t.mode = .kernel ∧
      (s.mode = .user ∨ ∃ num u1 u2, s.fetches (.syscall num u1 u2)))

/-- 10_state.md R17: the preemption counter goes up by one in a step that starts in USER mode, is reset by the timer, and is
decremented by `syscall`; in KERNEL mode nothing else changes it. (That the timer resets it where the incremented counter is
exactly 129 rests on spec decisions D10 and D24, logs 10 and 24.) -/
def Obligations.CounterRule : Prop :=
  ∀ s t : State, step s = .next t →
    (s.mode = .kernel →
      t.counter = s.counter ∨ (t.counter = s.counter - 1 ∧ ∃ num u1 u2, s.fetches (.syscall num u1 u2))) ∧
    (s.mode = .user →
      t.counter = s.counter + 1 ∨ (t.counter = 0 ∧ s.counter + 1 = 129) ∨
      (t.counter = s.counter ∧ ∃ num u1 u2, s.fetches (.syscall num u1 u2)))

/-- 20_memory.md R38, 60_exceptions.md R141: a USER-mode step changes no cell outside the user region (1024 to 2047) but the
trap cells. -/
def Obligations.UserStepKeepsKernelMemory : Prop :=
  ∀ s t : State, s.mode = .user → step s = .next t →
    ∀ a : Word, (a.toNat < 1024 ∨ 2048 ≤ a.toNat) → ¬ s.isTrapCell a → t.cell a = s.cell a

/-- 43_device_and_halt.md R105: a USER-mode step performs no device operation, does not change the trap configuration, and
halts the engine only with an error. -/
def Obligations.UserStepKeepsDevices : Prop :=
  ∀ s t : State, s.mode = .user → step s = .next t →
    sameDevices s t ∧ t.trapCfg = s.trapCfg ∧ (t.halted = true → t.report.isSome = true)

/-- Every step keeps the invariant: canonical memory inside the address space (10_state.md R27: its length never changes),
and an error is reported only by a halted engine. -/
def Obligations.EveryStepKeepsTheInvariant : Prop :=
  ∀ s t : State, s.inv reference → step s = .next t → t.inv reference

/-- The invariant holds after reset. -/
def Obligations.ResetHasTheInvariant : Prop := State.reset.inv reference

/-! ## Reset, boot, host (70_reset_and_hazards.md) -/

/-- 10_state.md R26 for an empty boot image and an empty payload (register, counter and stash values: spec decision D9; the
launch, `in_eof` among it: the model's choice, log 26; `report`: log 25). It is what `boot` leaves for that launch. -/
def Obligations.ResetState : Prop :=
  (∀ r, State.reset.reg r = 0) ∧ (∀ a, State.reset.cell a = 0) ∧ State.reset.mode = .kernel ∧
  State.reset.halted = false ∧ State.reset.counter = 0 ∧ State.reset.stash = 0 ∧
  State.reset.trapCfg = ⟨0, 0, 0, 0⟩ ∧ State.reset.inQueue = [0, 0] ∧ State.reset.inEof = true ∧
  State.reset.outLog = [] ∧ State.reset.report = none ∧ boot reference [] true = .ok State.reset

/-- R150, R151 (refusals: spec decision D22), for any parameters within the constraints of 00_scope.md R4: booting copies
the image to address 0 upward, zero-fills the rest, frames the payload before the further input and leaves everything else
as `State.reset` has it; a launch outside the contract is refused. -/
def Obligations.BootState : Prop :=
  ∀ (p : Params) (further : List Byte) (eof : Bool), p.valid →
    (p.bootImage.length ≤ p.kernelWords → p.payload.length ≤ 65535 →
      ∃ s, boot p further eof = .ok s ∧ s.inv p ∧
        (∀ a : Word, s.cell a = (p.bootImage[a.toNat]?).getD 0) ∧ (∀ r, s.reg r = 0) ∧ s.mode = .kernel ∧
        s.halted = false ∧ sameKernelState State.reset s ∧ s.inQueue = frame p.payload ++ further ∧ s.inEof = eof ∧
        s.outLog = []) ∧
    (p.kernelWords < p.bootImage.length → boot p further eof = .error .bootImageTooLong) ∧
    (p.bootImage.length ≤ p.kernelWords → 65535 < p.payload.length → boot p further eof = .error .payloadTooLong)

/-- R152: the frame is the two-byte big-endian count and then each word's four bytes, most significant first. -/
def Obligations.FrameLayout : Prop :=
  ∀ payload : List Word, payload.length ≤ 65535 →
    (frame payload).length = 2 + 4 * payload.length ∧
    (∃ b0 b1, (frame payload)[0]? = some b0 ∧ (frame payload)[1]? = some b1 ∧
      b0.toNat * 256 + b1.toNat = payload.length) ∧
    (∀ k w, payload[k]? = some w → ∃ b0 b1 b2 b3, (frame payload)[2 + 4 * k]? = some b0 ∧
      (frame payload)[2 + 4 * k + 1]? = some b1 ∧ (frame payload)[2 + 4 * k + 2]? = some b2 ∧
      (frame payload)[2 + 4 * k + 3]? = some b3 ∧
      ((b0.toNat * 256 + b1.toNat) * 256 + b2.toNat) * 256 + b3.toNat = w.toNat)

/-- 20_memory.md R44: an append to an open source is taken; appended input comes strictly after the bytes already queued,
several appends keep their order, and an append changes nothing else. (That a source which has ended takes none is the
model's reading, log 28.) -/
def Obligations.HostAppendsKeepOrder : Prop :=
  (∀ (s : State) (bs : List Byte), s.inEof = false → ∃ t, hostAppend bs s = some t) ∧
  ∀ (s t u : State) (bs cs : List Byte), hostAppend bs s = some t → hostAppend cs t = some u →
    t.inQueue = s.inQueue ++ bs ∧ u.inQueue = s.inQueue ++ (bs ++ cs) ∧
    sameRegsExcept [] s t ∧ sameCells s t ∧ t.mode = s.mode ∧ sameKernelState s t ∧ sameHaltState s t ∧
    t.inEof = s.inEof ∧ t.outLog = s.outLog

/-- 43_device_and_halt.md R106 (spec decision D15): a step holds only at a `read` that found no byte in KERNEL mode; after a
host append the same step completes and takes the first byte appended. -/
def Obligations.HoldIsLiftedByAnAppend : Prop :=
  ∀ (s t : State) (b : Byte) (bs : List Byte), step s = .fault .inputHold → hostAppend (b :: bs) s = some t →
    ∃ rd u1 u2, s.mode = .kernel ∧ s.fetches (.read (.reg rd) u1 u2) ∧
      step t = .next (((t.setReg ipReg (s.ip + 1)).setInQueue bs).setReg rd (BitVec.ofNat 32 b.toNat))

/-! ## Engines of any configuration (00_scope.md R2 (f), R4; 30_encoding.md R55) -/

/-- 00_scope.md R4: `step` is the step of an engine whose configuration holds the reference values, the registry of
30_encoding.md R52 among them (its numbers: spec decision D3; the threshold: D24). -/
def Obligations.StepIsTheReferenceStep : Prop :=
  (∀ s : State, step s = stepIn .reference s) ∧
  Configuration.reference.valid ∧ Configuration.reference.memWords = 2048 ∧ Configuration.reference.userBase = 1024 ∧
  Configuration.reference.userLimit = 2048 ∧ Configuration.reference.kernelWords = 1024 ∧
  Configuration.reference.timerThreshold = 129 ∧ Configuration.reference.registry.map Definition.name =
    ["halt", "unreachable", "read", "write", "move", "loadLiteral", "cmove", "add", "sub", "mul", "div", "and", "or", "xor",
     "not", "shl", "shr", "load", "store", "configure-traps", "enter-user-mode", "syscall"]

/-- 30_encoding.md R55, 40_step_cycle.md R60, R62: a definition appended to any registry becomes the instruction of the next
opcode, its validator deciding and its guards and base behaviour running; before the append that opcode was unknown, and no
other instruction changes. -/
def Obligations.RegisteredDefinitionRuns : Prop :=
  ∀ (c : Configuration) (d : Definition InterceptionGuard Behaviour) (s s1 : State), s.halted = false →
    s.hookPasses c.toParams s1 → s.ip.toNat < c.memWords →
    let w := s.cell s.ip
    let a0 := Arg.ofByte w.arg0Field
    let a1 := Arg.ofByte w.arg1Field
    let a2 := Arg.ofByte w.arg2Field
    (w.opcodeField.toNat = c.registry.length →
      stepIn c s = .next (s1.raise (.decode .unknownOpcode)) ∧
      (d.accepts a0 a1 a2 = true →
        stepIn (c.register d) s = runDecoded c.toParams ⟨d, a0, a1, a2⟩ (s1.setReg ipReg (s.ip + 1))) ∧
      (d.accepts a0 a1 a2 = false → stepIn (c.register d) s = .next (s1.raise (.decode .badArguments)))) ∧
    (w.opcodeField.toNat ≠ c.registry.length → stepIn (c.register d) s = stepIn c s)

/-- 40_step_cycle.md R61, R65, R66: a guard attached to any definition observes control before everything else of that
definition: an error it returns ends the step as `GuardError` (60_exceptions.md R133), and one that a primitive it uses raises
as that primitive's, whatever its skip; else its skip completes it; else the definition runs as it did
before the guard was attached, from the state the guard left. No other instruction changes. (That a
returned error is a text, log 35, and that attaching at an opcode without a definition changes nothing, log 36, are the
model's choices.) -/
def Obligations.AttachedGuardRunsFirst : Prop :=
  (∀ (c : Configuration) (op : Nat) (g : InterceptionGuard), c.registry.length ≤ op →
    (c.attach op g).registry = c.registry) ∧
  ∀ (c : Configuration) (op : Nat) (g : InterceptionGuard) (d : Decoded InterceptionGuard Behaviour) (s s1 : State)
    (answer : GuardAnswer), s.halted = false → s.hookPasses c.toParams s1 → s.ip.toNat < c.memWords →
    decodeIn c.registry (s.cell s.ip) = .ok d →
    answer = g c.toParams d.arg0 d.arg1 d.arg2 (s1.setReg ipReg (s.ip + 1)) →
    ((s.cell s.ip).opcodeField.toNat = op →
      (∀ e, answer.error = some (.returned e) →
        stepIn (c.attach op g) s = .next (answer.state.raise (.guardError e))) ∧
      (answer.error = some .dataBounds → stepIn (c.attach op g) s = .next (answer.state.raise .dataBounds)) ∧
      (answer.error = some .invalidOperand → stepIn (c.attach op g) s = .next (answer.state.raise .invalidOperand)) ∧
      (answer.error = none → answer.skip = true → stepIn (c.attach op g) s = .next answer.state) ∧
      (answer.error = none → answer.skip = false → stepIn (c.attach op g) s = runDecoded c.toParams d answer.state)) ∧
    ((s.cell s.ip).opcodeField.toNat ≠ op → stepIn (c.attach op g) s = stepIn c s)
end

