-- ==== Sys2Proof/Laws/Decode.lean ====
section
/-! SUPPORT. Small facts the decoder's and the encoder's statements rest on: argument bytes, fields of a packed word, the
registry written out. -/

namespace Sys2Proof

/-! ### Argument bytes (30_encoding.md R47) -/

theorem Arg.toByte_ofByte (b : Byte) : (Arg.ofByte b).toByte = b := by
  have hb : b.toNat < 256 := b.isLt
  apply BitVec.eq_of_toNat_eq
  by_cases h1 : b.toNat < 8
  · simp [Arg.ofByte, h1, Arg.toByte]
  · by_cases h2 : b.toNat < 128
    · simp [Arg.ofByte, h1, h2, Arg.toByte]
      omega
    · simp [Arg.ofByte, h1, h2, Arg.toByte]
      omega

theorem Arg.ofByte_toByte (a : Arg) : Arg.ofByte a.toByte = a := by
  cases a with
  | reg r =>
    have h : r.val < 8 := r.isLt
    have h1 : r.val % 256 = r.val := by omega
    simp [Arg.ofByte, Arg.toByte, h1]
  | invalid n =>
    have h : n.val < 120 := n.isLt
    have h1 : (n.val + 8) % 256 = n.val + 8 := by omega
    have h2 : n.val + 8 < 128 := by omega
    simp [Arg.ofByte, Arg.toByte, h1, h2]
  | imm v =>
    have h : v.toNat < 128 := v.isLt
    have h1 : (v.toNat + 128) % 256 = v.toNat + 128 := by omega
    have h2 : ¬ v.toNat + 128 < 8 := by omega
    simp [Arg.ofByte, Arg.toByte, h1, h2]

/-! ### The fields of a packed word (30_encoding.md R45, R58) -/

variable (op b0 b1 b2 : Byte)

@[simp] theorem packWord_opcodeField : (packWord op b0 b1 b2).opcodeField = op := by
  unfold packWord Word.opcodeField
  apply BitVec.eq_of_getLsbD_eq
  intro i hi
  rw [BitVec.getLsbD_extractLsb']
  simp only [BitVec.getLsbD_append]
  have h0 : ¬ 24 + i < 8 := by omega
  have h1 : ¬ 24 + i - 8 < 8 := by omega
  have h2 : ¬ 24 + i - 8 - 8 < 8 := by omega
  have h3 : 24 + i - 8 - 8 - 8 = i := by omega
  simp [hi, h0, h1, h2, h3]

@[simp] theorem packWord_arg0Field : (packWord op b0 b1 b2).arg0Field = b0 := by
  unfold packWord Word.arg0Field
  apply BitVec.eq_of_getLsbD_eq
  intro i hi
  rw [BitVec.getLsbD_extractLsb']
  simp only [BitVec.getLsbD_append]
  have h0 : ¬ 16 + i < 8 := by omega
  have h1 : ¬ 16 + i - 8 < 8 := by omega
  have h2 : 16 + i - 8 - 8 = i := by omega
  simp [hi, h0, h1, h2]

@[simp] theorem packWord_arg1Field : (packWord op b0 b1 b2).arg1Field = b1 := by
  unfold packWord Word.arg1Field
  apply BitVec.eq_of_getLsbD_eq
  intro i hi
  rw [BitVec.getLsbD_extractLsb']
  simp only [BitVec.getLsbD_append]
  have h0 : ¬ 8 + i < 8 := by omega
  have h1 : 8 + i - 8 = i := by omega
  simp [hi, h0, h1]

@[simp] theorem packWord_arg2Field : (packWord op b0 b1 b2).arg2Field = b2 := by
  unfold packWord Word.arg2Field
  apply BitVec.eq_of_getLsbD_eq
  intro i hi
  rw [BitVec.getLsbD_extractLsb']
  simp only [BitVec.getLsbD_append]
  simp [hi]

/-! ### The registry, written out (30_encoding.md R52, 40_step_cycle.md R63) -/

theorem registry_length : registry.length = 22 := by
  simp [registry, Registry.attachAll, Registry.attach, Registry.registerAll, Registry.register, baseDefinitions, kernelDefinitions]

theorem registry_getElem_opcodeOf (m : Mnemonic) : ∃ d, registry[registry.opcodeOf m]? = some d ∧ d.base = m := by
  cases m <;> exact ⟨_, rfl, rfl⟩

theorem registry_opcodeOf_lt (m : Mnemonic) : registry.opcodeOf m < 22 := by
  cases m <;> decide

end Sys2Proof
end

