-- ==== Sys2Proof/Laws/State.lean ====
section
/-! SUPPORT. One lemma per field per update of State, true by rfl, so that no later proof unfolds a record update; and
the register and memory observers over the updates. -/

namespace Sys2Proof.Machine

variable (s : State)

/-! ### `setReg` -/

@[simp] theorem State.setReg_regs (r : Reg) (v : Word) : (s.setReg r v).regs = s.regs.set r v := rfl
@[simp] theorem State.setReg_mem (r : Reg) (v : Word) : (s.setReg r v).mem = s.mem := rfl
@[simp] theorem State.setReg_mode (r : Reg) (v : Word) : (s.setReg r v).mode = s.mode := rfl
@[simp] theorem State.setReg_halted (r : Reg) (v : Word) : (s.setReg r v).halted = s.halted := rfl
@[simp] theorem State.setReg_counter (r : Reg) (v : Word) : (s.setReg r v).counter = s.counter := rfl
@[simp] theorem State.setReg_stash (r : Reg) (v : Word) : (s.setReg r v).stash = s.stash := rfl
@[simp] theorem State.setReg_trapCfg (r : Reg) (v : Word) : (s.setReg r v).trapCfg = s.trapCfg := rfl
@[simp] theorem State.setReg_inQueue (r : Reg) (v : Word) : (s.setReg r v).inQueue = s.inQueue := rfl
@[simp] theorem State.setReg_inEof (r : Reg) (v : Word) : (s.setReg r v).inEof = s.inEof := rfl
@[simp] theorem State.setReg_outLog (r : Reg) (v : Word) : (s.setReg r v).outLog = s.outLog := rfl
@[simp] theorem State.setReg_report (r : Reg) (v : Word) : (s.setReg r v).report = s.report := rfl
@[simp] theorem State.setReg_cell (r : Reg) (v : Word) (x : Word) : (s.setReg r v).cell x = s.cell x := rfl

/-! ### `setCell` -/

@[simp] theorem State.setCell_regs (a v : Word) : (s.setCell a v).regs = s.regs := rfl
@[simp] theorem State.setCell_mem (a v : Word) : (s.setCell a v).mem = s.mem.set a.toNat v := rfl
@[simp] theorem State.setCell_mode (a v : Word) : (s.setCell a v).mode = s.mode := rfl
@[simp] theorem State.setCell_halted (a v : Word) : (s.setCell a v).halted = s.halted := rfl
@[simp] theorem State.setCell_counter (a v : Word) : (s.setCell a v).counter = s.counter := rfl
@[simp] theorem State.setCell_stash (a v : Word) : (s.setCell a v).stash = s.stash := rfl
@[simp] theorem State.setCell_trapCfg (a v : Word) : (s.setCell a v).trapCfg = s.trapCfg := rfl
@[simp] theorem State.setCell_inQueue (a v : Word) : (s.setCell a v).inQueue = s.inQueue := rfl
@[simp] theorem State.setCell_inEof (a v : Word) : (s.setCell a v).inEof = s.inEof := rfl
@[simp] theorem State.setCell_outLog (a v : Word) : (s.setCell a v).outLog = s.outLog := rfl
@[simp] theorem State.setCell_report (a v : Word) : (s.setCell a v).report = s.report := rfl
@[simp] theorem State.setCell_reg (a v : Word) (q : Reg) : (s.setCell a v).reg q = s.reg q := rfl
@[simp] theorem State.setCell_ip (a v : Word) : (s.setCell a v).ip = s.ip := rfl

/-! ### `setMode` -/

@[simp] theorem State.setMode_regs (m : Mode) : (s.setMode m).regs = s.regs := rfl
@[simp] theorem State.setMode_mem (m : Mode) : (s.setMode m).mem = s.mem := rfl
@[simp] theorem State.setMode_mode (m : Mode) : (s.setMode m).mode = m := rfl
@[simp] theorem State.setMode_halted (m : Mode) : (s.setMode m).halted = s.halted := rfl
@[simp] theorem State.setMode_counter (m : Mode) : (s.setMode m).counter = s.counter := rfl
@[simp] theorem State.setMode_stash (m : Mode) : (s.setMode m).stash = s.stash := rfl
@[simp] theorem State.setMode_trapCfg (m : Mode) : (s.setMode m).trapCfg = s.trapCfg := rfl
@[simp] theorem State.setMode_inQueue (m : Mode) : (s.setMode m).inQueue = s.inQueue := rfl
@[simp] theorem State.setMode_inEof (m : Mode) : (s.setMode m).inEof = s.inEof := rfl
@[simp] theorem State.setMode_outLog (m : Mode) : (s.setMode m).outLog = s.outLog := rfl
@[simp] theorem State.setMode_report (m : Mode) : (s.setMode m).report = s.report := rfl
@[simp] theorem State.setMode_reg (m : Mode) (q : Reg) : (s.setMode m).reg q = s.reg q := rfl
@[simp] theorem State.setMode_ip (m : Mode) : (s.setMode m).ip = s.ip := rfl
@[simp] theorem State.setMode_cell (m : Mode) (x : Word) : (s.setMode m).cell x = s.cell x := rfl

/-! ### `setCounter` -/

@[simp] theorem State.setCounter_regs (c : Word) : (s.setCounter c).regs = s.regs := rfl
@[simp] theorem State.setCounter_mem (c : Word) : (s.setCounter c).mem = s.mem := rfl
@[simp] theorem State.setCounter_mode (c : Word) : (s.setCounter c).mode = s.mode := rfl
@[simp] theorem State.setCounter_halted (c : Word) : (s.setCounter c).halted = s.halted := rfl
@[simp] theorem State.setCounter_counter (c : Word) : (s.setCounter c).counter = c := rfl
@[simp] theorem State.setCounter_stash (c : Word) : (s.setCounter c).stash = s.stash := rfl
@[simp] theorem State.setCounter_trapCfg (c : Word) : (s.setCounter c).trapCfg = s.trapCfg := rfl
@[simp] theorem State.setCounter_inQueue (c : Word) : (s.setCounter c).inQueue = s.inQueue := rfl
@[simp] theorem State.setCounter_inEof (c : Word) : (s.setCounter c).inEof = s.inEof := rfl
@[simp] theorem State.setCounter_outLog (c : Word) : (s.setCounter c).outLog = s.outLog := rfl
@[simp] theorem State.setCounter_report (c : Word) : (s.setCounter c).report = s.report := rfl
@[simp] theorem State.setCounter_reg (c : Word) (q : Reg) : (s.setCounter c).reg q = s.reg q := rfl
@[simp] theorem State.setCounter_ip (c : Word) : (s.setCounter c).ip = s.ip := rfl
@[simp] theorem State.setCounter_cell (c : Word) (x : Word) : (s.setCounter c).cell x = s.cell x := rfl

/-! ### `setStash` -/

@[simp] theorem State.setStash_regs (v : Word) : (s.setStash v).regs = s.regs := rfl
@[simp] theorem State.setStash_mem (v : Word) : (s.setStash v).mem = s.mem := rfl
@[simp] theorem State.setStash_mode (v : Word) : (s.setStash v).mode = s.mode := rfl
@[simp] theorem State.setStash_halted (v : Word) : (s.setStash v).halted = s.halted := rfl
@[simp] theorem State.setStash_counter (v : Word) : (s.setStash v).counter = s.counter := rfl
@[simp] theorem State.setStash_stash (v : Word) : (s.setStash v).stash = v := rfl
@[simp] theorem State.setStash_trapCfg (v : Word) : (s.setStash v).trapCfg = s.trapCfg := rfl
@[simp] theorem State.setStash_inQueue (v : Word) : (s.setStash v).inQueue = s.inQueue := rfl
@[simp] theorem State.setStash_inEof (v : Word) : (s.setStash v).inEof = s.inEof := rfl
@[simp] theorem State.setStash_outLog (v : Word) : (s.setStash v).outLog = s.outLog := rfl
@[simp] theorem State.setStash_report (v : Word) : (s.setStash v).report = s.report := rfl
@[simp] theorem State.setStash_reg (v : Word) (q : Reg) : (s.setStash v).reg q = s.reg q := rfl
@[simp] theorem State.setStash_ip (v : Word) : (s.setStash v).ip = s.ip := rfl
@[simp] theorem State.setStash_cell (v : Word) (x : Word) : (s.setStash v).cell x = s.cell x := rfl

/-! ### `setTrapCfg` -/

@[simp] theorem State.setTrapCfg_regs (c : TrapConfig) : (s.setTrapCfg c).regs = s.regs := rfl
@[simp] theorem State.setTrapCfg_mem (c : TrapConfig) : (s.setTrapCfg c).mem = s.mem := rfl
@[simp] theorem State.setTrapCfg_mode (c : TrapConfig) : (s.setTrapCfg c).mode = s.mode := rfl
@[simp] theorem State.setTrapCfg_halted (c : TrapConfig) : (s.setTrapCfg c).halted = s.halted := rfl
@[simp] theorem State.setTrapCfg_counter (c : TrapConfig) : (s.setTrapCfg c).counter = s.counter := rfl
@[simp] theorem State.setTrapCfg_stash (c : TrapConfig) : (s.setTrapCfg c).stash = s.stash := rfl
@[simp] theorem State.setTrapCfg_trapCfg (c : TrapConfig) : (s.setTrapCfg c).trapCfg = c := rfl
@[simp] theorem State.setTrapCfg_inQueue (c : TrapConfig) : (s.setTrapCfg c).inQueue = s.inQueue := rfl
@[simp] theorem State.setTrapCfg_inEof (c : TrapConfig) : (s.setTrapCfg c).inEof = s.inEof := rfl
@[simp] theorem State.setTrapCfg_outLog (c : TrapConfig) : (s.setTrapCfg c).outLog = s.outLog := rfl
@[simp] theorem State.setTrapCfg_report (c : TrapConfig) : (s.setTrapCfg c).report = s.report := rfl
@[simp] theorem State.setTrapCfg_reg (c : TrapConfig) (q : Reg) : (s.setTrapCfg c).reg q = s.reg q := rfl
@[simp] theorem State.setTrapCfg_ip (c : TrapConfig) : (s.setTrapCfg c).ip = s.ip := rfl
@[simp] theorem State.setTrapCfg_cell (c : TrapConfig) (x : Word) : (s.setTrapCfg c).cell x = s.cell x := rfl

/-! ### `setInQueue` -/

@[simp] theorem State.setInQueue_regs (q : List Byte) : (s.setInQueue q).regs = s.regs := rfl
@[simp] theorem State.setInQueue_mem (q : List Byte) : (s.setInQueue q).mem = s.mem := rfl
@[simp] theorem State.setInQueue_mode (q : List Byte) : (s.setInQueue q).mode = s.mode := rfl
@[simp] theorem State.setInQueue_halted (q : List Byte) : (s.setInQueue q).halted = s.halted := rfl
@[simp] theorem State.setInQueue_counter (q : List Byte) : (s.setInQueue q).counter = s.counter := rfl
@[simp] theorem State.setInQueue_stash (q : List Byte) : (s.setInQueue q).stash = s.stash := rfl
@[simp] theorem State.setInQueue_trapCfg (q : List Byte) : (s.setInQueue q).trapCfg = s.trapCfg := rfl
@[simp] theorem State.setInQueue_inQueue (q : List Byte) : (s.setInQueue q).inQueue = q := rfl
@[simp] theorem State.setInQueue_inEof (q : List Byte) : (s.setInQueue q).inEof = s.inEof := rfl
@[simp] theorem State.setInQueue_outLog (q : List Byte) : (s.setInQueue q).outLog = s.outLog := rfl
@[simp] theorem State.setInQueue_report (q : List Byte) : (s.setInQueue q).report = s.report := rfl
@[simp] theorem State.setInQueue_reg (q : List Byte) (p : Reg) : (s.setInQueue q).reg p = s.reg p := rfl
@[simp] theorem State.setInQueue_ip (q : List Byte) : (s.setInQueue q).ip = s.ip := rfl
@[simp] theorem State.setInQueue_cell (q : List Byte) (x : Word) : (s.setInQueue q).cell x = s.cell x := rfl

/-! ### `appendOut` -/

@[simp] theorem State.appendOut_regs (b : Byte) : (s.appendOut b).regs = s.regs := rfl
@[simp] theorem State.appendOut_mem (b : Byte) : (s.appendOut b).mem = s.mem := rfl
@[simp] theorem State.appendOut_mode (b : Byte) : (s.appendOut b).mode = s.mode := rfl
@[simp] theorem State.appendOut_halted (b : Byte) : (s.appendOut b).halted = s.halted := rfl
@[simp] theorem State.appendOut_counter (b : Byte) : (s.appendOut b).counter = s.counter := rfl
@[simp] theorem State.appendOut_stash (b : Byte) : (s.appendOut b).stash = s.stash := rfl
@[simp] theorem State.appendOut_trapCfg (b : Byte) : (s.appendOut b).trapCfg = s.trapCfg := rfl
@[simp] theorem State.appendOut_inQueue (b : Byte) : (s.appendOut b).inQueue = s.inQueue := rfl
@[simp] theorem State.appendOut_inEof (b : Byte) : (s.appendOut b).inEof = s.inEof := rfl
@[simp] theorem State.appendOut_outLog (b : Byte) : (s.appendOut b).outLog = s.outLog ++ [b] := rfl
@[simp] theorem State.appendOut_report (b : Byte) : (s.appendOut b).report = s.report := rfl
@[simp] theorem State.appendOut_reg (b : Byte) (q : Reg) : (s.appendOut b).reg q = s.reg q := rfl
@[simp] theorem State.appendOut_ip (b : Byte) : (s.appendOut b).ip = s.ip := rfl
@[simp] theorem State.appendOut_cell (b : Byte) (x : Word) : (s.appendOut b).cell x = s.cell x := rfl

/-! ### `halt` -/

@[simp] theorem State.halt_regs : (s.halt).regs = s.regs := rfl
@[simp] theorem State.halt_mem : (s.halt).mem = s.mem := rfl
@[simp] theorem State.halt_mode : (s.halt).mode = s.mode := rfl
@[simp] theorem State.halt_halted : (s.halt).halted = true := rfl
@[simp] theorem State.halt_counter : (s.halt).counter = s.counter := rfl
@[simp] theorem State.halt_stash : (s.halt).stash = s.stash := rfl
@[simp] theorem State.halt_trapCfg : (s.halt).trapCfg = s.trapCfg := rfl
@[simp] theorem State.halt_inQueue : (s.halt).inQueue = s.inQueue := rfl
@[simp] theorem State.halt_inEof : (s.halt).inEof = s.inEof := rfl
@[simp] theorem State.halt_outLog : (s.halt).outLog = s.outLog := rfl
@[simp] theorem State.halt_report : (s.halt).report = s.report := rfl
@[simp] theorem State.halt_reg (q : Reg) : (s.halt).reg q = s.reg q := rfl
@[simp] theorem State.halt_ip : (s.halt).ip = s.ip := rfl
@[simp] theorem State.halt_cell (x : Word) : (s.halt).cell x = s.cell x := rfl

/-! ### `raise` -/

@[simp] theorem State.raise_regs (e : HostError) : (s.raise e).regs = s.regs := rfl
@[simp] theorem State.raise_mem (e : HostError) : (s.raise e).mem = s.mem := rfl
@[simp] theorem State.raise_mode (e : HostError) : (s.raise e).mode = s.mode := rfl
@[simp] theorem State.raise_halted (e : HostError) : (s.raise e).halted = true := rfl
@[simp] theorem State.raise_counter (e : HostError) : (s.raise e).counter = s.counter := rfl
@[simp] theorem State.raise_stash (e : HostError) : (s.raise e).stash = s.stash := rfl
@[simp] theorem State.raise_trapCfg (e : HostError) : (s.raise e).trapCfg = s.trapCfg := rfl
@[simp] theorem State.raise_inQueue (e : HostError) : (s.raise e).inQueue = s.inQueue := rfl
@[simp] theorem State.raise_inEof (e : HostError) : (s.raise e).inEof = s.inEof := rfl
@[simp] theorem State.raise_outLog (e : HostError) : (s.raise e).outLog = s.outLog := rfl
@[simp] theorem State.raise_report (e : HostError) : (s.raise e).report = some e := rfl
@[simp] theorem State.raise_reg (e : HostError) (q : Reg) : (s.raise e).reg q = s.reg q := rfl
@[simp] theorem State.raise_ip (e : HostError) : (s.raise e).ip = s.ip := rfl
@[simp] theorem State.raise_cell (e : HostError) (x : Word) : (s.raise e).cell x = s.cell x := rfl

/-! ### Reading registers back -/

/-- `setIp` is written in the one form `setReg ipReg`. -/
@[simp] theorem State.setIp_eq (t : Word) : s.setIp t = s.setReg ipReg t := rfl

@[simp] theorem State.setReg_reg_same (r : Reg) (v : Word) : (s.setReg r v).reg r = v := by
  simp [State.reg]

theorem State.setReg_reg (r q : Reg) (v : Word) : (s.setReg r v).reg q = if q = r then v else s.reg q := by
  by_cases h : q = r
  · simp [h]
  · have h' : r.val ≠ q.val := fun e => h (Fin.ext e.symm)
    simp [State.reg, h, h']

@[simp] theorem State.setReg_reg_of_ne {r q : Reg} (h : q ≠ r) (v : Word) : (s.setReg r v).reg q = s.reg q := by
  simp [State.setReg_reg, h]

@[simp] theorem State.setReg_ip_same (v : Word) : (s.setReg ipReg v).ip = v := by
  simp [State.ip]

@[simp] theorem ipReg_ne_zero : ¬ (ipReg = (0 : Reg)) := by decide

@[simp] theorem zero_ne_ipReg : ¬ ((0 : Reg) = ipReg) := by decide

/-! ### The reset state's registers (10_state.md R26) -/

theorem State.reset_reg (r : Reg) : State.reset.reg r = 0 := by
  simp [State.reg, State.reset]

end Sys2Proof.Machine
end

