-- ==== Sys2Proof/Laws/Memory.lean ====
section
/-! SUPPORT. The laws of memory: reading back, leaving the other cells alone, keeping the canonical form. -/

namespace Sys2Proof.Machine

/-! ### Reading after a write -/

theorem Memory.get_cons (a : Nat) (v : Word) (m : Memory) (x : Nat) (h : x = a → Memory.get m x = Memory.unlisted) :
    Memory.get (Memory.cons a v m) x = if x = a then v else Memory.get m x := by
  unfold Memory.cons
  by_cases hv : v = Memory.unlisted
  · by_cases hx : x = a
    · simp [hv, hx, ← h hx]
    · simp [hv, hx]
  · simp [hv, Memory.get]

/-- An address below every listed one reads as an unlisted address. -/
theorem Memory.get_of_lt (m : Memory) (a : Nat) (h : ∀ c ∈ m, a < c.1) : Memory.get m a = Memory.unlisted := by
  induction m with
  | nil => rfl
  | cons c m ih =>
    have hc : a < c.1 := h c (by simp)
    have hne : a ≠ c.1 := by omega
    simp only [Memory.get, hne, if_false]
    exact ih fun d hd => h d (by simp [hd])

theorem Memory.get_set_same (m : Memory) (h : m.Pairwise fun c d => c.1 < d.1) (a : Nat) (v : Word) :
    Memory.get (m.set a v) a = v := by
  induction m with
  | nil => simpa [Memory.set] using Memory.get_cons a v [] a (fun _ => rfl)
  | cons c m ih =>
    obtain ⟨k, w⟩ := c
    obtain ⟨hk, hm⟩ := List.pairwise_cons.mp h
    simp only [Memory.set]
    split
    · rename_i hlt
      refine (Memory.get_cons a v ((k, w) :: m) a fun _ => ?_).trans (if_pos rfl)
      refine Memory.get_of_lt ((k, w) :: m) a fun d hd => ?_
      rcases List.mem_cons.mp hd with rfl | hd
      · exact hlt
      · exact Nat.lt_trans hlt (hk d hd)
    · split
      · rename_i hak
        exact (Memory.get_cons a v m a fun _ => Memory.get_of_lt m a fun d hd => hak ▸ hk d hd).trans (if_pos rfl)
      · rename_i hne
        simp only [Memory.get, hne, if_false]
        exact ih hm

theorem Memory.get_set_of_ne (m : Memory) (a x : Nat) (v : Word) (h : x ≠ a) :
    Memory.get (m.set a v) x = Memory.get m x := by
  induction m with
  | nil => simpa [Memory.set, h] using Memory.get_cons a v [] x (fun e => absurd e h)
  | cons c m ih =>
    obtain ⟨k, w⟩ := c
    simp only [Memory.set]
    split
    · simpa [h] using Memory.get_cons a v ((k, w) :: m) x (fun e => absurd e h)
    · split
      · rename_i hak
        have hxk : x ≠ k := hak ▸ h
        simpa [h, Memory.get, hxk] using Memory.get_cons a v m x (fun e => absurd e h)
      · simp only [Memory.get, ih]

/-! ### The canonical form -/

theorem Memory.mem_cons {a : Nat} {v : Word} {m : Memory} {c : Cell} (h : c ∈ Memory.cons a v m) :
    (c = (a, v) ∧ v ≠ Memory.unlisted) ∨ c ∈ m := by
  unfold Memory.cons at h
  split at h
  · exact .inr h
  · rename_i hv
    rcases List.mem_cons.mp h with rfl | h
    · exact .inl ⟨rfl, hv⟩
    · exact .inr h

/-- Every cell listed after a write is the written one or was listed before. -/
theorem Memory.mem_set {m : Memory} {a : Nat} {v : Word} {c : Cell} (h : c ∈ m.set a v) :
    (c = (a, v) ∧ v ≠ Memory.unlisted) ∨ c ∈ m := by
  induction m with
  | nil => exact Memory.mem_cons h
  | cons d m ih =>
    obtain ⟨k, w⟩ := d
    simp only [Memory.set] at h
    split at h
    · exact Memory.mem_cons h
    · split at h
      · rcases Memory.mem_cons h with h | h
        · exact .inl h
        · exact .inr (List.mem_cons_of_mem _ h)
      · rcases List.mem_cons.mp h with rfl | h
        · exact .inr (by simp)
        · rcases ih h with h | h
          · exact .inl h
          · exact .inr (List.mem_cons_of_mem _ h)

theorem Memory.pairwise_cons_of_lt {a : Nat} {v : Word} {m : Memory} (hm : m.Pairwise fun c d => c.1 < d.1)
    (h : ∀ c ∈ m, a < c.1) : (Memory.cons a v m).Pairwise fun c d => c.1 < d.1 := by
  unfold Memory.cons
  split
  · exact hm
  · exact List.pairwise_cons.mpr ⟨h, hm⟩

theorem Memory.pairwise_set (m : Memory) (h : m.Pairwise fun c d => c.1 < d.1) (a : Nat) (v : Word) :
    (m.set a v).Pairwise fun c d => c.1 < d.1 := by
  induction m with
  | nil => exact Memory.pairwise_cons_of_lt h (by simp)
  | cons d m ih =>
    obtain ⟨k, w⟩ := d
    obtain ⟨hk, hm⟩ := List.pairwise_cons.mp h
    simp only [Memory.set]
    split
    · rename_i hlt
      refine Memory.pairwise_cons_of_lt h fun c hc => ?_
      rcases List.mem_cons.mp hc with rfl | hc
      · exact hlt
      · exact Nat.lt_trans hlt (hk c hc)
    · split
      · rename_i hak
        exact Memory.pairwise_cons_of_lt hm fun c hc => hak ▸ hk c hc
      · rename_i hlt hne
        refine List.pairwise_cons.mpr ⟨fun c hc => ?_, ih hm⟩
        rcases Memory.mem_set hc with ⟨rfl, _⟩ | hc
        · simp only
          omega
        · exact hk c hc

/-- A write inside memory keeps the canonical form. -/
theorem Memory.wf_set {m : Memory} {words : Nat} (h : m.wf words) {a : Nat} (ha : a < words) (v : Word) :
    (m.set a v).wf words := by
  refine ⟨Memory.pairwise_set m h.1 a v, fun c hc => ?_⟩
  rcases Memory.mem_set hc with ⟨rfl, hv⟩ | hc
  · exact ⟨ha, hv⟩
  · exact h.2 c hc

/-- Placing consecutive words inside memory keeps the canonical form. -/
theorem Memory.wf_setAll {m : Memory} {words : Nat} (h : m.wf words) (a : Nat) (ws : List Word)
    (hl : a + ws.length ≤ words) : (m.setAll a ws).wf words := by
  induction ws generalizing m a with
  | nil => exact h
  | cons w ws ih =>
    simp only [List.length_cons] at hl
    exact ih (Memory.wf_set h (by omega) w) (a + 1) (by omega)

/-! ### The same over State, for any parameters -/

variable {p : Params}

theorem inMemory_iff (a : Word) : inMemory p a = true ↔ a.toNat < p.memWords := by
  simp [inMemory]

theorem State.setCell_cell_same (s : State) {words : Nat} (h : s.mem.wf words) (a v : Word) :
    (s.setCell a v).cell a = v :=
  Memory.get_set_same s.mem h.1 a.toNat v

theorem State.setCell_cell_of_ne (s : State) {a x : Word} (h : x ≠ a) (v : Word) : (s.setCell a v).cell x = s.cell x :=
  Memory.get_set_of_ne s.mem a.toNat x.toNat v fun e => h (BitVec.eq_of_toNat_eq e)

theorem State.wf_setCell (s : State) (h : s.mem.wf p.memWords) {a : Word} (ha : inMemory p a = true) (v : Word) :
    (s.setCell a v).mem.wf p.memWords :=
  Memory.wf_set h ((inMemory_iff a).mp ha) v

/-- `MemWrite` either writes one cell of memory or fails with nothing changed. -/
theorem memWrite_cases (p : Params) (a v : Word) (s : State) :
    (inMemory p a = true ∧ memWrite p a v s = .ok (s.setCell a v)) ∨
    (inMemory p a = false ∧ memWrite p a v s = .err .dataBounds s) := by
  unfold memWrite
  cases h : inMemory p a <;> simp

/-- `MemRead` either reads one cell of memory or fails. -/
theorem memRead_cases (p : Params) (a : Word) (s : State) :
    (inMemory p a = true ∧ memRead p a s = .ok (s.cell a)) ∨
    (inMemory p a = false ∧ memRead p a s = .error .dataBounds) := by
  unfold memRead
  cases h : inMemory p a <;> simp

/-- The bounds comparator, spelled out (20_memory.md R38). -/
theorem inBounds_iff (a : Word) : inBounds p a = true ↔ p.userBase ≤ a.toNat ∧ a.toNat < p.userLimit := by
  simp [inBounds]

end Sys2Proof.Machine
end

