-- ==== Sys2Proof/Laws/Ops.lean ====
section
/-! SUPPORT. What each shared operation can do, said once: trap delivery, the return from a trap, the pre-execute hook,
`resolve`, the gates and running an instruction behind its guards. Provers cite these instead of unfolding them. -/

namespace Sys2Proof.Machine

/-! ### Effects -/

@[simp] theorem Effect.andThen_ok (s : State) (f : State → Effect) : (Effect.ok s).andThen f = f s := rfl
@[simp] theorem Effect.andThen_err (e : HostError) (s : State) (f : State → Effect) :
    (Effect.err e s).andThen f = .err e s := rfl
@[simp] theorem Effect.result_ok (s : State) : (Effect.ok s).result = .next s := rfl
@[simp] theorem Effect.result_err (e : HostError) (s : State) : (Effect.err e s).result = .next (s.raise e) := rfl

/-! ### Operands (30_encoding.md R48) -/

@[simp] theorem resolve_reg (r : Reg) (s : State) : resolve (.reg r) s = .ok (s.reg r) := rfl
@[simp] theorem resolve_imm (v : BitVec 7) (s : State) : resolve (.imm v) s = .ok (immWord v) := rfl
@[simp] theorem resolve_invalid (n : Fin 120) (s : State) : resolve (.invalid n) s = .error .invalidOperand := rfl
@[simp] theorem writeDest_reg (r : Reg) (v : Word) (s : State) : writeDest (.reg r) v s = .ok (s.setReg r v) := rfl

/-- A register-or-immediate argument always has a value (30_encoding.md R50). -/
theorem resolve_of_isRegImm {a : Arg} (h : a.isRegImm = true) (s : State) : ∃ v, resolve a s = .ok v := by
  cases a with
  | reg r => exact ⟨_, rfl⟩
  | imm v => exact ⟨_, rfl⟩
  | invalid n => simp [Arg.isRegImm, Arg.isReg, Arg.isImm] at h

theorem Arg.eq_reg_of_isReg {a : Arg} (h : a.isReg = true) : ∃ r, a = .reg r := by
  cases a with
  | reg r => exact ⟨r, rfl⟩
  | imm v => simp [Arg.isReg] at h
  | invalid n => simp [Arg.isReg] at h

/-- The only error `resolve` gives. -/
theorem resolve_error {a : Arg} {s : State} {e : HostError} (h : resolve a s = .error e) : e = .invalidOperand := by
  cases a <;> simp [resolve] at h
  exact h.symm

theorem not_wellFormed_regImm {a : Arg} {s : State} {e : HostError} (h : resolve a s = .error e) : a.isRegImm = false := by
  cases a <;> simp [resolve] at h
  rfl

/-- The errors of a result of one source. -/
theorem unary_error {f : Word → Option Word} {a : Arg} {s : State} {e : HostError} (h : unary f a s = .error e) :
    e = .invalidOperand ∧ a.isRegImm = false := by
  unfold unary at h
  split at h
  · cases h
  · rename_i e' he
    cases h
    exact ⟨resolve_error he, not_wellFormed_regImm he⟩

/-- The errors of a result of two sources. -/
theorem binary_error {f : Word → Word → Option Word} {a b : Arg} {s : State} {e : HostError}
    (h : binary f a b s = .error e) : e = .invalidOperand ∧ (a.isRegImm && b.isRegImm) = false := by
  unfold binary at h
  split at h
  · exact ⟨(unary_error h).1, by simp [(unary_error h).2]⟩
  · rename_i e' he
    cases h
    exact ⟨resolve_error he, by simp [not_wellFormed_regImm he]⟩

/-- The only error a data instruction's result gives. -/
theorem dataResult_error {m : Mnemonic} {a1 a2 : Arg} {s : State} {e : HostError} (h : dataResult m a1 a2 s = .error e) :
    e = .invalidOperand := by
  cases m <;> first | cases h | exact (unary_error h).1 | exact (binary_error h).1

/-- Writing a destination writes that register, or fails with nothing changed. -/
theorem writeDest_cases (rd : Arg) (v : Word) (s : State) :
    (∃ r, rd = .reg r ∧ writeDest rd v s = .ok (s.setReg r v)) ∨
    (rd.isReg = false ∧ writeDest rd v s = .err .invalidOperand s) := by
  cases rd <;> simp [writeDest, Arg.isReg]

/-! ### Trap delivery (60_exceptions.md R123, R138) -/

variable {p : Params}

/-- The state `DeliverTrap` leaves where both cells lie in memory. -/
def trapped (r : Reason) (s : State) : State :=
  ((((s.setMode .kernel).setCell s.trapCfg.retCell s.ip).setReg ipReg s.trapCfg.handler).setCell
    s.trapCfg.reasonCell r.code).setStash (s.reg 0)

/-- Everything trap delivery can do: all five effects; or it stops at the return-address cell; or at the reason cell. -/
theorem deliverTrap_cases (p : Params) (r : Reason) (s : State) :
    (inMemory p s.trapCfg.retCell = true ∧ inMemory p s.trapCfg.reasonCell = true ∧ deliverTrap p r s = .ok (trapped r s)) ∨
    (inMemory p s.trapCfg.retCell = false ∧ deliverTrap p r s = .err .dataBounds (s.setMode .kernel)) ∨
    (inMemory p s.trapCfg.retCell = true ∧ inMemory p s.trapCfg.reasonCell = false ∧ deliverTrap p r s =
      .err .dataBounds (((s.setMode .kernel).setCell s.trapCfg.retCell s.ip).setReg ipReg s.trapCfg.handler)) := by
  rcases memWrite_cases p s.trapCfg.retCell s.ip (s.setMode .kernel) with ⟨h1, e1⟩ | ⟨h1, e1⟩
  · rcases memWrite_cases p s.trapCfg.reasonCell r.code
      (((s.setMode .kernel).setCell s.trapCfg.retCell s.ip).setReg ipReg s.trapCfg.handler) with ⟨h2, e2⟩ | ⟨h2, e2⟩
    · refine .inl ⟨h1, h2, ?_⟩
      simp [deliverTrap, e1, e2, trapped, State.setReg_reg_of_ne _ (show (0 : Reg) ≠ ipReg by decide)]
    · refine .inr (.inr ⟨h1, h2, ?_⟩)
      simp [deliverTrap, e1, e2]
  · refine .inr (.inl ⟨h1, ?_⟩)
    simp [deliverTrap, e1]

/-- What holds of the state after trap delivery, whether or not it was complete. -/
structure TrapFrame (p : Params) (s t : State) : Prop where
  mode : t.mode = .kernel
  regs : ∀ q, q ≠ ipReg → t.reg q = s.reg q
  cells : ∀ a, a ≠ s.trapCfg.retCell → a ≠ s.trapCfg.reasonCell → t.cell a = s.cell a
  wf : s.mem.wf p.memWords → t.mem.wf p.memWords
  halted : t.halted = s.halted
  counter : t.counter = s.counter
  stash : t.stash = s.stash ∨ t.stash = s.reg 0
  trapCfg : t.trapCfg = s.trapCfg
  inQueue : t.inQueue = s.inQueue
  inEof : t.inEof = s.inEof
  outLog : t.outLog = s.outLog
  report : t.report = s.report

/-- The state an effect leaves, failed or not. -/
def Effect.state : Effect → State
  | .ok s => s
  | .err _ s => s

theorem deliverTrap_frame (p : Params) (r : Reason) (s : State) : TrapFrame p s (deliverTrap p r s).state := by
  rcases deliverTrap_cases p r s with ⟨h1, h2, e⟩ | ⟨h1, e⟩ | ⟨h1, h2, e⟩
  · rw [e]
    refine { mode := rfl, regs := ?_, cells := ?_, wf := ?_, halted := rfl, counter := rfl, stash := .inr rfl,
             trapCfg := rfl, inQueue := rfl, inEof := rfl, outLog := rfl, report := rfl }
    · intro q hq
      simp [Effect.state, trapped, hq]
    · intro a ha hb
      simp only [Effect.state, trapped, State.setStash_cell]
      rw [State.setCell_cell_of_ne _ hb, State.setReg_cell, State.setCell_cell_of_ne _ ha, State.setMode_cell]
    · intro h
      exact State.wf_setCell _ (State.wf_setCell _ h h1 _) h2 _
  · rw [e]
    exact { mode := rfl, regs := fun _ _ => rfl, cells := fun _ _ _ => rfl, wf := id, halted := rfl, counter := rfl,
            stash := .inl rfl, trapCfg := rfl, inQueue := rfl, inEof := rfl, outLog := rfl, report := rfl }
  · rw [e]
    refine { mode := rfl, regs := ?_, cells := ?_, wf := ?_, halted := rfl, counter := rfl, stash := .inl rfl,
             trapCfg := rfl, inQueue := rfl, inEof := rfl, outLog := rfl, report := rfl }
    · intro q hq
      simp [Effect.state, hq]
    · intro a ha _
      simp only [Effect.state, State.setReg_cell]
      rw [State.setCell_cell_of_ne _ ha, State.setMode_cell]
    · intro h
      exact State.wf_setCell _ h h1 _

/-- The only error trap delivery gives. -/
theorem deliverTrap_err {r : Reason} {s t : State} {e : HostError} (h : deliverTrap p r s = .err e t) : e = .dataBounds := by
  rcases deliverTrap_cases p r s with ⟨_, _, e'⟩ | ⟨_, e'⟩ | ⟨_, _, e'⟩ <;> rw [e'] at h <;> cases h <;> rfl

/-! ### Guards (40_step_cycle.md R65) -/

@[simp] theorem GuardFailure.kind_returned (e : String) : (GuardFailure.returned e).kind = .guardError e := rfl
@[simp] theorem GuardFailure.kind_dataBounds : GuardFailure.dataBounds.kind = .dataBounds := rfl
@[simp] theorem GuardFailure.kind_invalidOperand : GuardFailure.invalidOperand.kind = .invalidOperand := rfl
@[simp] theorem runChain_nil (base : State → StepResult) (s : State) : runChain [] base s = base s := rfl

/-- A guard that passes changes nothing and hands on. -/
theorem runChain_pass {g : Guard} {s : State} (h : g s = .pass s) (gs : List Guard) (base : State → StepResult) :
    runChain (g :: gs) base s = runChain gs base s := by
  simp [runChain, h, Answer.pass]

/-- A guard that delivers a trap ends the step as the delivery ends. -/
theorem runChain_trap {g : Guard} {s : State} {r : Reason} (h : g s = trapAndSkip p r s) (gs : List Guard)
    (base : State → StepResult) : runChain (g :: gs) base s = (deliverTrap p r s).result := by
  simp only [runChain, h, trapAndSkip]
  cases hd : deliverTrap p r s with
  | ok t => simp
  | err e t =>
    obtain rfl := deliverTrap_err hd
    rfl

/-! ### The guards of each definition (40_step_cycle.md R63) -/

@[simp] theorem guardsOf_halt : registry.guardsOf .halt = [.privileged] := rfl
@[simp] theorem guardsOf_unreachable : registry.guardsOf .unreachable = [.privileged] := rfl
@[simp] theorem guardsOf_read : registry.guardsOf .read = [.privileged] := rfl
@[simp] theorem guardsOf_write : registry.guardsOf .write = [.privileged] := rfl
@[simp] theorem guardsOf_move : registry.guardsOf .move = [.ipWrite] := rfl
@[simp] theorem guardsOf_loadLiteral : registry.guardsOf .loadLiteral = [.ipWrite] := rfl
@[simp] theorem guardsOf_cmove : registry.guardsOf .cmove = [.ipWrite] := rfl
@[simp] theorem guardsOf_add : registry.guardsOf .add = [.ipWrite] := rfl
@[simp] theorem guardsOf_sub : registry.guardsOf .sub = [.ipWrite] := rfl
@[simp] theorem guardsOf_mul : registry.guardsOf .mul = [.ipWrite] := rfl
@[simp] theorem guardsOf_div : registry.guardsOf .div = [.ipWrite] := rfl
@[simp] theorem guardsOf_and : registry.guardsOf .and = [.ipWrite] := rfl
@[simp] theorem guardsOf_or : registry.guardsOf .or = [.ipWrite] := rfl
@[simp] theorem guardsOf_xor : registry.guardsOf .xor = [.ipWrite] := rfl
@[simp] theorem guardsOf_not : registry.guardsOf .not = [.ipWrite] := rfl
@[simp] theorem guardsOf_shl : registry.guardsOf .shl = [.ipWrite] := rfl
@[simp] theorem guardsOf_shr : registry.guardsOf .shr = [.ipWrite] := rfl
@[simp] theorem guardsOf_load : registry.guardsOf .load = [.address] := rfl
@[simp] theorem guardsOf_store : registry.guardsOf .store = [.address] := rfl
@[simp] theorem guardsOf_configureTraps : registry.guardsOf .configureTraps = [.privileged] := rfl
@[simp] theorem guardsOf_enterUserMode : registry.guardsOf .enterUserMode = [.privileged] := rfl
@[simp] theorem guardsOf_syscall : registry.guardsOf .syscall = [] := rfl

/-! ### Running behind each gate -/

variable {m : Mnemonic} {a0 a1 a2 : Arg} {base : Behaviour} {s : State}

/-- With no guard only the base behaviour runs. -/
theorem run_unguarded (h : registry.guardsOf m = []) : run m a0 a1 a2 base s = base reference a0 a1 a2 s := by
  simp [run, h]

/-- Behind the privileged gate (60_exceptions.md R129). -/
theorem run_privileged (h : registry.guardsOf m = [.privileged]) :
    run m a0 a1 a2 base s =
      match s.mode with
      | .kernel => base reference a0 a1 a2 s
      | .user => (deliverTrap reference .illegalInstruction s).result := by
  simp only [run, h, List.map_cons, List.map_nil, gate]
  cases hm : s.mode with
  | kernel => exact runChain_pass (by simp [privGate, hm]) [] _
  | user => exact runChain_trap (by simp [privGate, hm]) [] _

/-- Behind the address gate, the operand having a value (60_exceptions.md R130). -/
theorem run_address (h : registry.guardsOf m = [.address]) {a : Word} (ha : resolve a1 s = .ok a) :
    run m a0 a1 a2 base s =
      if s.mode = .user ∧ inBounds reference a = false then (deliverTrap reference .outOfBounds s).result else base reference a0 a1 a2 s := by
  simp only [run, h, List.map_cons, List.map_nil, gate]
  cases hm : s.mode with
  | kernel => simpa using runChain_pass (g := addrGate reference a1) (by simp [addrGate, hm]) [] _
  | user =>
    cases hb : inBounds reference a with
    | true => simpa using runChain_pass (g := addrGate reference a1) (by simp [addrGate, hm, ha, hb]) [] _
    | false => simpa using runChain_trap (g := addrGate reference a1) (r := .outOfBounds) (by simp [addrGate, hm, ha, hb]) [] _

/-- The ip-write gate fires: USER mode, destination register 7, a value outside the user region (60_exceptions.md R131). -/
abbrev ipWriteTraps (rd : Arg) (v : Option Word) (s : State) : Prop :=
  s.mode = .user ∧ rd = .reg ipReg ∧ ∃ w, v = some w ∧ inBounds reference w = false

/-- Behind the ip-write gate, the result having no error (60_exceptions.md R131, R132). -/
theorem run_ipWrite_trap (h : registry.guardsOf m = [.ipWrite]) {v : Option Word} (hv : dataResult m a1 a2 s = .ok v)
    (ht : ipWriteTraps a0 v s) : run m a0 a1 a2 base s = (deliverTrap reference .outOfBounds s).result := by
  obtain ⟨hm, h0, w, rfl, hb⟩ := ht
  simp only [run, h, List.map_cons, List.map_nil, gate]
  exact runChain_trap (by simp [ipWriteGate, hm, h0, hv, hb]) [] _

theorem run_ipWrite_pass (h : registry.guardsOf m = [.ipWrite]) {v : Option Word} (hv : dataResult m a1 a2 s = .ok v)
    (ht : ¬ ipWriteTraps a0 v s) : run m a0 a1 a2 base s = base reference a0 a1 a2 s := by
  simp only [run, h, List.map_cons, List.map_nil, gate]
  refine (runChain_pass ?_ [] _).trans rfl
  unfold ipWriteGate
  cases hm : s.mode with
  | kernel => rfl
  | user =>
    by_cases h0 : a0 = .reg ipReg
    · cases v with
      | none => simp [h0, hv]
      | some w =>
        cases hb : inBounds reference w with
        | true => simp [h0, hv, hb]
        | false => exact absurd ⟨hm, h0, w, rfl, hb⟩ ht
    · simp [h0]

/-! ### The pre-execute hook (60_exceptions.md R126) -/

theorem preExecuteHook_kernel (h : s.mode = .kernel) : preExecuteHook p s = .pass s := by
  simp [preExecuteHook, h]

/-- A USER-mode step that the timer does not take. -/
theorem preExecuteHook_count (h : s.mode = .user) (hc : p.timerFires (s.counter + 1) p.timerThreshold = false) :
    preExecuteHook p s = .pass (s.setCounter (s.counter + 1)) := by
  simp only [preExecuteHook, h, State.setCounter_counter, hc, Bool.false_eq_true, if_false]

/-- The timer step. -/
theorem preExecuteHook_fires (h : s.mode = .user) (hc : p.timerFires (s.counter + 1) p.timerThreshold = true) :
    preExecuteHook p s =
      match deliverTrap p .timer (s.setCounter (s.counter + 1)) with
      | .ok t => ⟨t.setCounter 0, true, none⟩
      | .err e t => ⟨t, false, some e⟩ := by
  rw [preExecuteHook, h]
  exact if_pos hc

/-- The reference timer fires exactly where the incremented counter is 129 (R127; D10, D24, logs 10, 24). -/
theorem reference_fires_iff (c : Word) : reference.timerFires c reference.timerThreshold = true ↔ c = 129 := by
  simp [reference, timerReaches]

theorem reference_not_fires {c : Word} (h : c ≠ 129) : reference.timerFires c reference.timerThreshold = false :=
  Bool.eq_false_iff.mpr fun hf => h ((reference_fires_iff c).mp hf)

end Sys2Proof.Machine
end

