-- ==== Sys2Proof/Laws/Exec.lean ====
section
/-! SUPPORT. What executing one instruction can do, said once: `exec_cases` classifies every next state of `exec`, and each
class's effect on each part of the state is a short case analysis from there. -/

namespace Sys2Proof.Machine

/-! ### The shared shapes, behind their gates -/

/-- A data result that commits writes one register, writes nothing, or fails with nothing changed. -/
theorem commit_cases (rd : Arg) (r : DataResult) (s : State) :
    (∃ q v, rd = .reg q ∧ r = .ok (some v) ∧ commit rd r s = .ok (s.setReg q v)) ∨
    (r = .ok none ∧ commit rd r s = .ok s) ∨
    (∃ e, commit rd r s = .err e s ∧ ((rd.isReg = false ∧ e = .invalidOperand) ∨ r = .error e)) := by
  rcases r with e | _ | v
  · exact .inr (.inr ⟨e, rfl, .inr rfl⟩)
  · exact .inr (.inl ⟨rfl, rfl⟩)
  · rcases writeDest_cases rd v s with ⟨q, hq, h⟩ | ⟨hq, h⟩
    · exact .inl ⟨q, v, hq, rfl, h⟩
    · exact .inr (.inr ⟨_, h, .inl ⟨hq, rfl⟩⟩)

/-- What an instruction behind the ip-write gate can do: trap in USER mode, raise an error of its own result, or run its base
behaviour with the gate's condition met. -/
theorem run_ipWrite_cases {m : Mnemonic} (h : registry.guardsOf m = [.ipWrite]) (a0 a1 a2 : Arg)
    (base : Behaviour) (s : State) :
    (s.mode = .user ∧ (a0 = .reg ipReg ∧ ∃ v, dataResult m a1 a2 s = .ok (some v) ∧ inBounds reference v = false) ∧
      run m a0 a1 a2 base s = (deliverTrap reference .outOfBounds s).result) ∨
    (∃ e, dataResult m a1 a2 s = .error e ∧ run m a0 a1 a2 base s = .next (s.raise e)) ∨
    run m a0 a1 a2 base s = base reference a0 a1 a2 s := by
  cases hd : dataResult m a1 a2 s with
  | ok v =>
    by_cases ht : ipWriteTraps a0 v s
    · obtain ⟨w, rfl, hw⟩ := ht.2.2
      exact .inl ⟨ht.1, ⟨ht.2.1, w, rfl, hw⟩, run_ipWrite_trap h hd ht⟩
    · exact .inr (.inr (run_ipWrite_pass h hd ht))
  | error e =>
    by_cases hc : s.mode = .user ∧ a0 = .reg ipReg
    · refine .inr (.inl ⟨e, rfl, ?_⟩)
      obtain rfl := dataResult_error hd
      simp [run, h, gate, runChain, ipWriteGate, hc.1, hc.2, hd]
    · refine .inr (.inr ?_)
      simp only [run, h, List.map_cons, List.map_nil, gate]
      refine (runChain_pass ?_ [] _).trans rfl
      unfold ipWriteGate
      cases hm : s.mode with
      | kernel => rfl
      | user => simp [show a0 ≠ .reg ipReg from fun h0 => hc ⟨hm, h0⟩]

/-- What an instruction behind the address gate can do. -/
theorem run_address_cases {m : Mnemonic} (h : registry.guardsOf m = [.address]) (a0 a1 a2 : Arg)
    (base : Behaviour) (s : State) :
    (s.mode = .user ∧ (∃ a, resolve a1 s = .ok a ∧ inBounds reference a = false) ∧
      run m a0 a1 a2 base s = (deliverTrap reference .outOfBounds s).result) ∨
    (∃ e, resolve a1 s = .error e ∧ run m a0 a1 a2 base s = .next (s.raise e)) ∨
    (run m a0 a1 a2 base s = base reference a0 a1 a2 s ∧
      ∀ a, resolve a1 s = .ok a → s.mode = .user → inBounds reference a = true) := by
  cases hr : resolve a1 s with
  | ok a =>
    by_cases hc : s.mode = .user ∧ inBounds reference a = false
    · exact .inl ⟨hc.1, ⟨a, rfl, hc.2⟩, by rw [run_address h hr, if_pos hc]⟩
    · refine .inr (.inr ⟨by rw [run_address h hr, if_neg hc], fun b hb hu => ?_⟩)
      cases hb
      cases hi : inBounds reference a with
      | true => rfl
      | false => exact absurd ⟨hu, hi⟩ hc
  | error e =>
    cases hm : s.mode with
    | kernel =>
      refine .inr (.inr ⟨?_, fun a ha => by simp at ha⟩)
      simp only [run, h, List.map_cons, List.map_nil, gate]
      exact (runChain_pass (g := addrGate reference a1) (by simp [addrGate, hm]) [] _).trans rfl
    | user =>
      refine .inr (.inl ⟨e, rfl, ?_⟩)
      obtain rfl := resolve_error hr
      simp [run, h, gate, runChain, addrGate, hm, hr]

/-! ### The classification -/

/-- What executing `i` in `s` did to reach `t`, and under which conditions. -/
inductive ExecStep (i : Instr) (s : State) : State → Prop where
  /-- nothing: a `cmove` with a zero condition -/
  | nothing (hi : i.isData = true) : ExecStep i s s
  /-- a host-visible error raised with nothing changed before it -/
  | error (e : HostError)
      (he : e = .invalidOperand → i.wellFormed = false)
      (hd : i.isData = true → e = .invalidOperand ∨ (i.mnemonic = .div ∧ e = .divideByZero))
      (hm : i.mnemonic = .load ∨ i.mnemonic = .store → e = .invalidOperand ∨ e = .dataBounds)
      (hp : i.isPrivileged = true → s.mode = .kernel) : ExecStep i s (s.raise e)
  /-- a gate's trap, taken in USER mode in place of the instruction -/
  | trap (r : Reason) (t : State) (hr : i.gateFires s r) (hu : s.mode = .user)
      (h : (deliverTrap reference r s).result = .next t) : ExecStep i s t
  /-- a register written: a data instruction or a `load` -/
  | setReg (q : Reg) (v : Word) (hq : i.args.1 = .reg q) (hi : i.isData = true ∨ i.mnemonic = .load) :
      ExecStep i s (s.setReg q v)
  /-- a cell written: a `store` -/
  | setCell (value addr u : Arg) (a v : Word) (hi : i = .store value addr u) (hv : resolve value s = .ok v)
      (ha : effectiveAddress addr s = .ok a) (hin : inMemory reference a = true)
      (hb : s.mode = .user → inBounds reference a = true) :
      ExecStep i s (s.setCell a v)
  /-- a byte taken from the input: a `read` -/
  | read (q : Reg) (b : Byte) (bs : List Byte) (hk : s.mode = .kernel) (hi : i.mnemonic = .read)
      (hq : i.args.1 = .reg q) (hin : s.inQueue = b :: bs) : ExecStep i s ((s.setInQueue bs).setReg q (zextByte b))
  /-- a byte sent: a `write` -/
  | write (b : Byte) (hk : s.mode = .kernel) (hi : i.mnemonic = .write) : ExecStep i s (s.appendOut b)
  /-- the engine halted: a `halt` -/
  | halt (u0 u1 u2 : Arg) (hk : s.mode = .kernel) (hi : i = .halt u0 u1 u2) : ExecStep i s s.halt
  /-- the trap configuration written: a `configure-traps` -/
  | configureTraps (u0 u1 u2 : Arg) (hk : s.mode = .kernel) (hi : i = .configureTraps u0 u1 u2) :
      ExecStep i s (s.setTrapCfg ⟨s.reg 0, s.reg 1, s.reg 2, s.reg 3⟩)
  /-- the return to USER mode: an `enter-user-mode` -/
  | enterUserMode (u0 u1 u2 : Arg) (hk : s.mode = .kernel) (hi : i = .enterUserMode u0 u1 u2) :
      ExecStep i s (returnToUser s)
  /-- the trap gate: a `syscall` -/
  | syscall (num u1 u2 : Arg) (n : Word) (t : State) (hi : i = .syscall num u1 u2) (hn : resolve num s = .ok n)
      (h : (syscallEffect reference n s).result = .next t) : ExecStep i s t

/-- A gate never takes a trap for a `syscall`'s reason. -/
theorem gateFires_ne_syscall {i : Instr} {s : State} {r : Reason} (h : i.gateFires s r) : r ≠ .syscall := by
  rcases h with ⟨rfl, _⟩ | ⟨rfl, _⟩ | ⟨rfl, _⟩ <;> decide

theorem next_inj {s t : State} (h : (Host.Outcome.next s : StepResult) = .next t) : t = s := by
  cases h
  rfl

/-- A data instruction is none of the others. -/
theorem isData_excludes {i : Instr} (h : i.isData = true) :
    i.isPrivileged = false ∧ i.mnemonic ≠ .load ∧ i.mnemonic ≠ .store := by
  cases i <;> simp [Instr.isData, Instr.isPrivileged, Instr.mnemonic] at h ⊢

/-- The error of an argument byte that names no register is one of the classified errors of an ill-formed instruction. -/
theorem ExecStep.invalid {i : Instr} {s : State} (hi : i.isPrivileged = false) (hw : i.wellFormed = false) :
    ExecStep i s (s.raise .invalidOperand) :=
  .error _ (fun _ => hw) (fun _ => .inl rfl) (fun _ => .inl rfl) (fun h => by simp [hi] at h)

/-- Committing a data result is one of the classified steps. -/
theorem commit_step {i : Instr} (hi : i.isData = true) {r : DataResult} {s t : State}
    (hr : ∀ e, r = .error e → e = .invalidOperand ∧ i.wellFormed = false)
    (hw : i.args.1.isReg = false → i.wellFormed = false) (hx : (commit i.args.1 r s).result = .next t) :
    ExecStep i s t := by
  rcases commit_cases i.args.1 r s with ⟨q, v, hq, _, hc⟩ | ⟨_, hc⟩ | ⟨e, hc, he⟩
  · simp only [hc, Effect.result_ok] at hx
    obtain rfl := next_inj hx
    exact .setReg q v hq (.inl hi)
  · simp only [hc, Effect.result_ok] at hx
    obtain rfl := next_inj hx
    exact .nothing hi
  · simp only [hc, Effect.result_err] at hx
    obtain rfl := next_inj hx
    rcases he with ⟨he, rfl⟩ | he
    · exact .invalid (isData_excludes hi).1 (hw he)
    · obtain ⟨rfl, hw'⟩ := hr e he
      exact .invalid (isData_excludes hi).1 hw'

/-- A data instruction: its next state comes from its gate's trap, its result's error, or its base behaviour. -/
theorem data_cases {m : Mnemonic} (h : registry.guardsOf m = [.ipWrite]) {i : Instr} {a0 a1 a2 : Arg}
    (hi : i.isData = true) (hm : m = i.mnemonic) (ha : i.args = (a0, a1, a2)) {base : Behaviour} {s t : State}
    (hr : ∀ e, dataResult m a1 a2 s = .error e → e = .invalidOperand ∧ i.wellFormed = false)
    (hb : base reference a0 a1 a2 s = .next t → ExecStep i s t) (hx : run m a0 a1 a2 base s = .next t) : ExecStep i s t := by
  rcases run_ipWrite_cases h a0 a1 a2 base s with ⟨hu, hc, hx'⟩ | ⟨e, he, hx'⟩ | hx'
  · exact .trap .outOfBounds t (.inr (.inr ⟨rfl, hi, by rw [ha]; exact hm ▸ hc⟩)) hu (hx'.symm.trans hx)
  · obtain rfl := next_inj (hx'.symm.trans hx)
    obtain ⟨rfl, hw⟩ := hr e he
    exact .invalid (isData_excludes hi).1 hw
  · exact hb (hx'.symm.trans hx)

/-- A privileged instruction: its gate's trap in USER mode, its base behaviour in KERNEL mode. -/
theorem privileged_cases {m : Mnemonic} (h : registry.guardsOf m = [.privileged]) {i : Instr}
    (hi : i.isPrivileged = true) {a0 a1 a2 : Arg} {base : Behaviour} {s t : State} (hx : run m a0 a1 a2 base s = .next t) :
    ExecStep i s t ∨ (s.mode = .kernel ∧ base reference a0 a1 a2 s = .next t) := by
  rw [run_privileged h] at hx
  cases hm : s.mode with
  | kernel => exact .inr ⟨rfl, by simpa [hm] using hx⟩
  | user => exact .inl (.trap .illegalInstruction t (.inl ⟨rfl, hi⟩) hm (by simpa [hm] using hx))

/-- A base behaviour that commits a result of two sources. -/
theorem binary_step {i : Instr} (hi : i.isData = true) {f : Word → Word → Option Word} {a b : Arg} {s t : State}
    (hw : i.wellFormed = (i.args.1.isReg && a.isRegImm && b.isRegImm))
    (hx : (commit i.args.1 (binary f a b s) s).result = .next t) : ExecStep i s t :=
  commit_step hi (fun _ he => ⟨(binary_error he).1, by rw [hw, Bool.and_assoc, (binary_error he).2, Bool.and_false]⟩)
    (fun h => by rw [hw, h]; rfl) hx

/-- A base behaviour that commits a result of one source. -/
theorem unary_step {i : Instr} (hi : i.isData = true) {f : Word → Option Word} {a : Arg} {s t : State}
    (hw : i.wellFormed = true → i.args.1.isReg = true ∧ a.isRegImm = true)
    (hx : (commit i.args.1 (unary f a s) s).result = .next t) : ExecStep i s t :=
  commit_step hi (fun _ he => ⟨(unary_error he).1, by simpa [(unary_error he).2] using hw⟩)
    (fun h => by simpa [h] using hw) hx

/-! ### One lemma an instruction whose base behaviour is its own -/

/-- `div` as the classified steps: a zero divisor raises its error. -/
theorem div_cases {rd a b : Arg} {s t : State} (hx : exec (.div rd a b) s = .next t) : ExecStep (.div rd a b) s t := by
  refine data_cases guardsOf_div rfl rfl rfl
    (fun e he => ⟨(binary_error he).1, by
      simp only [Instr.wellFormed]
      rw [Bool.and_assoc, (binary_error he).2, Bool.and_false]⟩) (fun hb => ?_) hx
  cases hr : divResult a b s with
  | ok v =>
    cases v with
    | none =>
      simp only [divBase, hr] at hb
      obtain rfl := next_inj hb
      exact .error _ (fun h => by cases h) (fun _ => .inr ⟨rfl, rfl⟩) (fun h => by rcases h with h | h <;> cases h)
        (fun h => by cases h)
    | some v =>
      simp only [divBase, hr] at hb
      exact binary_step (f := divWord) (a := a) (b := b) rfl rfl (by simpa [divResult, Instr.args, ← hr] using hb)
  | error e =>
    simp only [divBase, hr] at hb
    exact binary_step (f := divWord) (a := a) (b := b) rfl rfl (by simpa [divResult, Instr.args, ← hr] using hb)

/-- `load` as the classified steps. -/
theorem load_cases {a0 addr u : Arg} {s t : State} (hx : exec (.load a0 addr u) s = .next t) :
    ExecStep (.load a0 addr u) s t := by
  have bad : addr.isRegImm = false ∨ a0.isReg = false → ExecStep (.load a0 addr u) s (s.raise .invalidOperand) :=
    fun h => .invalid rfl (by rcases h with h | h <;> simp [Instr.wellFormed, h])
  rcases run_address_cases guardsOf_load a0 addr u _ s with ⟨hu, hc, hx'⟩ | ⟨e, he, hx'⟩ | ⟨hx', _⟩
  · exact .trap .outOfBounds t (.inr (.inl ⟨rfl, .inl rfl, hc⟩)) hu (hx'.symm.trans hx)
  · obtain rfl := next_inj (hx'.symm.trans hx)
    obtain rfl := resolve_error he
    exact bad (.inl (not_wellFormed_regImm he))
  · have hb := hx'.symm.trans hx
    simp only [loadBase, effectiveAddress] at hb
    cases hr : resolve addr s with
    | error e =>
      simp only [hr] at hb
      obtain rfl := next_inj hb
      obtain rfl := resolve_error hr
      exact bad (.inl (not_wellFormed_regImm hr))
    | ok ea =>
      simp only [hr] at hb
      rcases memRead_cases reference ea s with ⟨_, hm⟩ | ⟨_, hm⟩ <;> simp only [hm] at hb
      · rcases writeDest_cases a0 (s.cell ea) s with ⟨q, hq, hw⟩ | ⟨hq, hw⟩ <;>
          simp only [hw, Effect.result_ok, Effect.result_err] at hb <;> obtain rfl := next_inj hb
        · exact .setReg q _ hq (.inr rfl)
        · exact bad (.inr hq)
      · obtain rfl := next_inj hb
        exact .error _ (fun h => by cases h) (fun h => by cases h) (fun _ => .inr rfl) (fun h => by cases h)

/-- `store` as the classified steps. -/
theorem store_cases {value addr u : Arg} {s t : State} (hx : exec (.store value addr u) s = .next t) :
    ExecStep (.store value addr u) s t := by
  have bad : value.isRegImm = false ∨ addr.isRegImm = false →
      ExecStep (.store value addr u) s (s.raise .invalidOperand) :=
    fun h => .invalid rfl (by rcases h with h | h <;> simp [Instr.wellFormed, h])
  rcases run_address_cases guardsOf_store value addr u _ s with ⟨hu, hc, hx'⟩ | ⟨e, he, hx'⟩ | ⟨hx', hbd⟩
  · exact .trap .outOfBounds t (.inr (.inl ⟨rfl, .inr rfl, hc⟩)) hu (hx'.symm.trans hx)
  · obtain rfl := next_inj (hx'.symm.trans hx)
    obtain rfl := resolve_error he
    exact bad (.inr (not_wellFormed_regImm he))
  · have hb := hx'.symm.trans hx
    simp only [storeBase, effectiveAddress] at hb
    cases hv : resolve value s with
    | error e =>
      simp only [hv] at hb
      obtain rfl := next_inj hb
      obtain rfl := resolve_error hv
      exact bad (.inl (not_wellFormed_regImm hv))
    | ok v =>
      cases hr : resolve addr s with
      | error e =>
        simp only [hv, hr] at hb
        obtain rfl := next_inj hb
        obtain rfl := resolve_error hr
        exact bad (.inr (not_wellFormed_regImm hr))
      | ok ea =>
        simp only [hv, hr] at hb
        rcases memWrite_cases reference ea v s with ⟨hin, hm⟩ | ⟨_, hm⟩ <;>
          simp only [hm, Effect.result_ok, Effect.result_err] at hb <;> obtain rfl := next_inj hb
        · exact .setCell value addr u ea v rfl hv hr hin fun h => hbd ea hr h
        · exact .error _ (fun h => by cases h) (fun h => by cases h) (fun _ => .inr rfl) (fun h => by cases h)

/-- `read` as the classified steps. -/
theorem read_cases {a0 u1 u2 : Arg} {s t : State} (hx : exec (.read a0 u1 u2) s = .next t) :
    ExecStep (.read a0 u1 u2) s t := by
  rcases privileged_cases (i := .read a0 u1 u2) guardsOf_read rfl hx with h | ⟨hk, hb⟩
  · exact h
  · cases hq : s.inQueue with
    | nil => cases he : s.inEof <;> simp [readBase, hq, he] at hb
    | cons b bs =>
      simp only [readBase, hq] at hb
      rcases writeDest_cases a0 (zextByte b) s with ⟨q, hq', hw⟩ | ⟨hq', hw⟩ <;>
        simp only [hw, Effect.andThen_ok, Effect.andThen_err, Effect.result_ok, Effect.result_err] at hb <;>
        obtain rfl := next_inj hb
      · exact .read q b bs hk rfl hq' hq
      · exact .error _ (fun _ => hq') (fun h => by cases h) (fun h => by rcases h with h | h <;> cases h) (fun _ => hk)

/-- `write` as the classified steps. -/
theorem write_cases {src u1 u2 : Arg} {s t : State} (hx : exec (.write src u1 u2) s = .next t) :
    ExecStep (.write src u1 u2) s t := by
  rcases privileged_cases (i := .write src u1 u2) guardsOf_write rfl hx with h | ⟨hk, hb⟩
  · exact h
  · cases hr : resolve src s with
    | ok v =>
      simp only [writeBase, hr] at hb
      obtain rfl := next_inj hb
      exact .write _ hk rfl
    | error e =>
      simp only [writeBase, hr] at hb
      obtain rfl := next_inj hb
      obtain rfl := resolve_error hr
      exact .error _ (fun _ => not_wellFormed_regImm hr) (fun h => by cases h)
        (fun h => by rcases h with h | h <;> cases h) (fun _ => hk)

/-- `syscall` has no guard: it resolves its argument, then takes its effects (44_kernel_instructions.md R115). -/
theorem exec_syscall_of_resolve {num u1 u2 : Arg} {s : State} {n : Word} (h : resolve num s = .ok n) :
    exec (.syscall num u1 u2) s = (syscallEffect reference n s).result := by
  simp only [exec, execSyscall, run_unguarded guardsOf_syscall, syscallBase, h]

/-- `syscall` as the classified steps. -/
theorem syscall_cases {num u1 u2 : Arg} {s t : State} (hx : exec (.syscall num u1 u2) s = .next t) :
    ExecStep (.syscall num u1 u2) s t := by
  have hb := hx
  simp only [exec, execSyscall, run_unguarded guardsOf_syscall, syscallBase] at hb
  cases hr : resolve num s with
  | ok n =>
    simp only [hr] at hb
    exact .syscall num u1 u2 n t rfl hr hb
  | error e =>
    simp only [hr] at hb
    obtain rfl := next_inj hb
    obtain rfl := resolve_error hr
    exact .invalid rfl (not_wellFormed_regImm hr)

/-! ### Every instruction -/

/-- Every next state of `exec`, classified. -/
theorem exec_cases {i : Instr} {s t : State} (h : exec i s = .next t) : ExecStep i s t := by
  have wf3 : ∀ {p q r : Bool} {P : Prop}, ((p && q && r) = false → P) → (q && r) = false → P := fun k h =>
    k (by rw [Bool.and_assoc, h, Bool.and_false])
  cases i with
  | halt u0 u1 u2 =>
    rcases privileged_cases (i := .halt u0 u1 u2) guardsOf_halt rfl h with h | ⟨hk, hb⟩
    · exact h
    · exact next_inj hb ▸ .halt u0 u1 u2 hk rfl
  | unreachable u0 u1 u2 =>
    rcases privileged_cases (i := .unreachable u0 u1 u2) guardsOf_unreachable rfl h with h | ⟨hk, hb⟩
    · exact h
    · exact next_inj hb ▸ .error _ (fun h => by cases h) (fun h => by cases h)
        (fun h => by rcases h with h | h <;> cases h) (fun _ => hk)
  | read => exact read_cases h
  | write => exact write_cases h
  | move rd src u2 =>
    refine data_cases guardsOf_move rfl rfl rfl (fun e he => ⟨(unary_error he).1, ?_⟩) (fun hb => unary_step rfl ?_ hb) h
    · simp [Instr.wellFormed, (unary_error he).2]
    · simp [Instr.wellFormed, Instr.args]
  | loadLiteral rd lit u2 =>
    have imm : lit.isImm = true → lit.isRegImm = true := fun h => by simp [Arg.isRegImm, h]
    have wf : Instr.wellFormed (.loadLiteral rd lit u2) = true → rd.isReg = true ∧ lit.isRegImm = true := fun h => by
      simp only [Instr.wellFormed, Bool.and_eq_true] at h
      exact ⟨h.1, imm h.2⟩
    refine data_cases guardsOf_loadLiteral rfl rfl rfl (fun e he => ⟨(unary_error he).1, ?_⟩) (fun hb => unary_step rfl wf hb) h
    exact Bool.eq_false_iff.mpr fun h' => by simpa [(unary_error he).2] using (wf h').2
  | cmove rd src cond =>
    exact data_cases guardsOf_cmove rfl rfl rfl (fun e he => ⟨(binary_error he).1, wf3 id (binary_error he).2⟩)
      (fun hb => binary_step rfl rfl hb) h
  | add rd a b =>
    exact data_cases guardsOf_add rfl rfl rfl (fun e he => ⟨(binary_error he).1, wf3 id (binary_error he).2⟩)
      (fun hb => binary_step rfl rfl hb) h
  | sub rd a b =>
    exact data_cases guardsOf_sub rfl rfl rfl (fun e he => ⟨(binary_error he).1, wf3 id (binary_error he).2⟩)
      (fun hb => binary_step rfl rfl hb) h
  | mul rd a b =>
    exact data_cases guardsOf_mul rfl rfl rfl (fun e he => ⟨(binary_error he).1, wf3 id (binary_error he).2⟩)
      (fun hb => binary_step rfl rfl hb) h
  | div => exact div_cases h
  | and rd a b =>
    exact data_cases guardsOf_and rfl rfl rfl (fun e he => ⟨(binary_error he).1, wf3 id (binary_error he).2⟩)
      (fun hb => binary_step rfl rfl hb) h
  | or rd a b =>
    exact data_cases guardsOf_or rfl rfl rfl (fun e he => ⟨(binary_error he).1, wf3 id (binary_error he).2⟩)
      (fun hb => binary_step rfl rfl hb) h
  | xor rd a b =>
    exact data_cases guardsOf_xor rfl rfl rfl (fun e he => ⟨(binary_error he).1, wf3 id (binary_error he).2⟩)
      (fun hb => binary_step rfl rfl hb) h
  | not rd a u2 =>
    refine data_cases guardsOf_not rfl rfl rfl (fun e he => ⟨(unary_error he).1, ?_⟩) (fun hb => unary_step rfl ?_ hb) h
    · simp [Instr.wellFormed, (unary_error he).2]
    · simp [Instr.wellFormed, Instr.args]
  | shl rd a b =>
    exact data_cases guardsOf_shl rfl rfl rfl (fun e he => ⟨(binary_error he).1, wf3 id (binary_error he).2⟩)
      (fun hb => binary_step rfl rfl hb) h
  | shr rd a b =>
    exact data_cases guardsOf_shr rfl rfl rfl (fun e he => ⟨(binary_error he).1, wf3 id (binary_error he).2⟩)
      (fun hb => binary_step rfl rfl hb) h
  | load => exact load_cases h
  | store => exact store_cases h
  | configureTraps u0 u1 u2 =>
    rcases privileged_cases (i := .configureTraps u0 u1 u2) guardsOf_configureTraps rfl h with h | ⟨hk, hb⟩
    · exact h
    · exact next_inj hb ▸ .configureTraps u0 u1 u2 hk rfl
  | enterUserMode u0 u1 u2 =>
    rcases privileged_cases (i := .enterUserMode u0 u1 u2) guardsOf_enterUserMode rfl h with h | ⟨hk, hb⟩
    · exact h
    · exact next_inj hb ▸ .enterUserMode u0 u1 u2 hk rfl
  | syscall => exact syscall_cases h

end Sys2Proof.Machine
end

