-- ==== Sys2Proof/Laws/PerInstr.lean ====
section
/-! SUPPORT. Statements about every instruction as syntax, one lemma a constructor. -/

/-- The registry's row of an instruction is found at its opcode, has its base behaviour, accepts its arguments exactly where they
are well formed, and rebuilds it (30_encoding.md R46, R49, R52). -/
def Sys2Proof.Laws.RegistryRow.Statement (i : Sys2Proof.Instr) : Prop :=
  ∃ d, Sys2Proof.registry[Sys2Proof.registry.opcodeOf i.mnemonic]? = some d ∧ d.base = i.mnemonic ∧
    d.accepts i.args.1 i.args.2.1 i.args.2.2 = i.wellFormed ∧ d.base.build i.args.1 i.args.2.1 i.args.2.2 = i

namespace Sys2Proof.Laws.RegistryRow

variable (a0 a1 a2 : Arg)

/-- A validator's three checks against the same checks without the unused ones. -/
theorem and_trues (p q : Bool) : (p && q && true) = (p && q) ∧ (p && true && true) = p := by
  simp

theorem halt : Statement (.halt a0 a1 a2) := ⟨_, rfl, rfl, rfl, rfl⟩
theorem unreachable : Statement (.unreachable a0 a1 a2) := ⟨_, rfl, rfl, rfl, rfl⟩
theorem read : Statement (.read a0 a1 a2) := ⟨_, rfl, rfl, (and_trues _ true).2, rfl⟩
theorem write : Statement (.write a0 a1 a2) := ⟨_, rfl, rfl, (and_trues _ true).2, rfl⟩
theorem move : Statement (.move a0 a1 a2) := ⟨_, rfl, rfl, (and_trues _ _).1, rfl⟩
theorem loadLiteral : Statement (.loadLiteral a0 a1 a2) := ⟨_, rfl, rfl, (and_trues _ _).1, rfl⟩
theorem cmove : Statement (.cmove a0 a1 a2) := ⟨_, rfl, rfl, rfl, rfl⟩
theorem add : Statement (.add a0 a1 a2) := ⟨_, rfl, rfl, rfl, rfl⟩
theorem sub : Statement (.sub a0 a1 a2) := ⟨_, rfl, rfl, rfl, rfl⟩
theorem mul : Statement (.mul a0 a1 a2) := ⟨_, rfl, rfl, rfl, rfl⟩
theorem div : Statement (.div a0 a1 a2) := ⟨_, rfl, rfl, rfl, rfl⟩
theorem and : Statement (.and a0 a1 a2) := ⟨_, rfl, rfl, rfl, rfl⟩
theorem or : Statement (.or a0 a1 a2) := ⟨_, rfl, rfl, rfl, rfl⟩
theorem xor : Statement (.xor a0 a1 a2) := ⟨_, rfl, rfl, rfl, rfl⟩
theorem not : Statement (.not a0 a1 a2) := ⟨_, rfl, rfl, (and_trues _ _).1, rfl⟩
theorem shl : Statement (.shl a0 a1 a2) := ⟨_, rfl, rfl, rfl, rfl⟩
theorem shr : Statement (.shr a0 a1 a2) := ⟨_, rfl, rfl, rfl, rfl⟩
theorem load : Statement (.load a0 a1 a2) := ⟨_, rfl, rfl, (and_trues _ _).1, rfl⟩
theorem store : Statement (.store a0 a1 a2) := ⟨_, rfl, rfl, (and_trues _ _).1, rfl⟩
theorem configureTraps : Statement (.configureTraps a0 a1 a2) := ⟨_, rfl, rfl, rfl, rfl⟩
theorem enterUserMode : Statement (.enterUserMode a0 a1 a2) := ⟨_, rfl, rfl, rfl, rfl⟩
theorem syscall : Statement (.syscall a0 a1 a2) := ⟨_, rfl, rfl, (and_trues _ true).2, rfl⟩

end Sys2Proof.Laws.RegistryRow
end

