-- ==== Sys2Proof/Laws/Step.lean ====
section
/-! SUPPORT. What a step can do, said once (40_step_cycle.md rules R68 to R74): `step_cases`. -/

namespace Sys2Proof.Machine

variable {p : Params}

theorem hookPasses_eq {s s1 : State} (h : s.hookPasses p s1) : preExecuteHook p s = .pass s1 := by
  rcases h with ⟨hk, rfl⟩ | ⟨hu, hc, rfl⟩
  · exact preExecuteHook_kernel hk
  · exact preExecuteHook_count hu hc

/-- Either the hook passes or, in USER mode, the timer fires. -/
theorem hookPasses_or_fires (p : Params) (s : State) :
    (∃ s1, s.hookPasses p s1) ∨ (s.mode = .user ∧ p.timerFires (s.counter + 1) p.timerThreshold = true) := by
  cases hm : s.mode with
  | kernel => exact .inl ⟨s, .inl ⟨hm, rfl⟩⟩
  | user =>
    cases hf : p.timerFires (s.counter + 1) p.timerThreshold with
    | false => exact .inl ⟨_, .inr ⟨hm, hf, rfl⟩⟩
    | true => exact .inr ⟨rfl, rfl⟩

/-- The stages before execution where the hook passes, for any decoder. -/
theorem beginStep_of_hookPasses {α : Type} (dec : Word → Except DecodeError α) {s s1 : State} (hh : s.halted = false)
    (h : s.hookPasses p s1) : beginStep p dec s = fetchStage p dec s1 := by
  simp [beginStep, hh, hookPasses_eq h, Answer.pass]

/-- Passing the hook changes at most the counter. -/
theorem hookPasses_frame {s s1 : State} (h : s.hookPasses p s1) :
    s1.regs = s.regs ∧ s1.mem = s.mem ∧ s1.mode = s.mode ∧ s1.halted = s.halted ∧ s1.stash = s.stash ∧
    s1.trapCfg = s.trapCfg ∧ s1.inQueue = s.inQueue ∧ s1.inEof = s.inEof ∧ s1.outLog = s.outLog ∧
    s1.report = s.report := by
  rcases h with ⟨_, rfl⟩ | ⟨_, _, rfl⟩ <;> simp

theorem hookPasses_reg {s s1 : State} (h : s.hookPasses p s1) (q : Reg) : s1.reg q = s.reg q := by
  rcases h with ⟨_, rfl⟩ | ⟨_, _, rfl⟩ <;> rfl

theorem hookPasses_cell {s s1 : State} (h : s.hookPasses p s1) (a : Word) : s1.cell a = s.cell a := by
  rcases h with ⟨_, rfl⟩ | ⟨_, _, rfl⟩ <;> rfl

theorem hookPasses_ip {s s1 : State} (h : s.hookPasses p s1) : s1.ip = s.ip := hookPasses_reg h ipReg

/-- A step from `s` to `t`: the timer took it, the fetch or the decode failed, or an instruction ran. -/
inductive StepCase (s t : State) : Prop where
  | timer (r : State) (hu : s.mode = .user) (hc : s.counter + 1 = 129)
      (hd : deliverTrap reference .timer (s.setCounter (s.counter + 1)) = .ok r) (ht : t = r.setCounter 0)
  | timerError (r : State) (hu : s.mode = .user) (hc : s.counter + 1 = 129)
      (hd : deliverTrap reference .timer (s.setCounter (s.counter + 1)) = .err .dataBounds r)
      (ht : t = r.raise .dataBounds)
  | fetchError (s1 : State) (e : HostError) (h1 : s.hookPasses reference s1) (ht : t = s1.raise e)
      (hf : inMemory reference s.ip = false ∨ ∃ k, decode (s.cell s.ip) = .error k)
  | instruction (s1 : State) (i : Instr) (h1 : s.hookPasses reference s1) (hf : s.fetches i)
      (hx : exec i (s1.setReg ipReg (s.ip + 1)) = .next t)

theorem step_cases {s t : State} (h : step s = .next t) : s.halted = false ∧ StepCase s t := by
  cases hh : s.halted with
  | true => simp [step, stepWith, beginStep, hh] at h
  | false =>
    refine ⟨rfl, ?_⟩
    rcases hookPasses_or_fires reference s with ⟨s1, h1⟩ | ⟨hu, hf⟩
    · simp only [step, stepWith, beginStep_of_hookPasses decode hh h1, fetchStage, hookPasses_ip h1,
        hookPasses_cell h1] at h
      cases hin : inMemory reference s.ip with
      | false =>
        simp only [hin, Bool.false_eq_true, if_false] at h
        exact .fetchError s1 _ h1 (next_inj h) (.inl hin)
      | true =>
        cases hd : decode (s.cell s.ip) with
        | error k =>
          simp only [hin, hd, if_true] at h
          exact .fetchError s1 _ h1 (next_inj h) (.inr ⟨k, hd⟩)
        | ok i =>
          simp only [hin, hd, if_true, State.setIp_eq] at h
          exact .instruction s1 i h1 ⟨hin, hd⟩ h
    · have hk := preExecuteHook_fires hu hf
      have hc := (reference_fires_iff _).mp hf
      cases hd : deliverTrap reference .timer (s.setCounter (s.counter + 1)) with
      | ok r =>
        rw [hd] at hk
        simp only [step, stepWith, beginStep, hh, Bool.false_eq_true, if_false, hk, if_true] at h
        exact .timer r hu hc hd (next_inj h)
      | err e r =>
        obtain rfl := deliverTrap_err hd
        rw [hd] at hk
        simp only [step, stepWith, beginStep, hh, Bool.false_eq_true, if_false, hk] at h
        exact .timerError r hu hc hd (next_inj h)

/-! ### The reference instructions as definitions of a registry -/

/-- Executing a reference instruction is running its guards and its base behaviour. -/
theorem exec_build (m : Mnemonic) (a0 a1 a2 : Arg) (s : State) :
    exec (m.build a0 a1 a2) s = run m a0 a1 a2 (behaviourOf m) s := by
  cases m <;> rfl

/-- Decoding with the installed registry is decoding with the reference table, its definition installed. -/
theorem decodeIn_installed (p : Params) (w : Word) :
    decodeIn (Configuration.ofParams p).registry w =
      (decodeIn registry w).map fun d => ⟨installed d.definition, d.arg0, d.arg1, d.arg2⟩ := by
  simp only [decodeIn, Configuration.ofParams, List.getElem?_map]
  cases registry[w.opcodeField.toNat]? with
  | none => rfl
  | some d =>
    have same : ∀ a0 a1 a2, (installed d).accepts a0 a1 a2 = d.accepts a0 a1 a2 := fun _ _ _ => rfl
    simp only [Option.map_some]
    by_cases ha : d.accepts (Arg.ofByte w.arg0Field) (Arg.ofByte w.arg1Field) (Arg.ofByte w.arg2Field) = true
    · rw [if_pos ha, if_pos ((same _ _ _).trans ha)]
      rfl
    · rw [if_neg ha, if_neg fun h => ha ((same _ _ _).symm.trans h)]
      rfl

/-- The chain of each row of the reference registry is the one its mnemonic names. -/
theorem registry_guards : ∀ d ∈ registry, d.guards = registry.guardsOf d.base := by decide

/-- Running a definition as an engine holds it is running its guards, each on its base behaviour's name. -/
theorem runDecoded_installed (p : Params) (d : Definition GuardName Mnemonic) (a0 a1 a2 : Arg) (s : State) :
    runDecoded p ⟨installed d, a0, a1, a2⟩ s =
      runChain (d.guards.map fun g => gate d.base g p a0 a1 a2) (behaviourOf d.base p a0 a1 a2) s := by
  simp [runDecoded, installed, Definition.interpret, Function.comp_def]

end Sys2Proof.Machine
end

