-- ==== Sys2Proof/Tests/Slice0.lean ====
section
/-! SUPPORT. Small tests: the well-formedness check, the decoder on words written out from the spec's encodings, one step of
each instruction on start states of 95_test_vectors.md (V<n>, T<n>, S<n> name its rows; expected values are copied from them),
and a witness for the hypotheses of every statement that has some. -/

namespace Sys2Proof.Tests

open Sys2Proof.Machine

/-! ### WellFormed: an ill-formed term for each check (30_encoding.md R52) -/

theorem test_wellFormed_refuses_destination :
    (Instr.read (.imm 0) (.reg 0) (.reg 0)).wellFormed = false ∧ (Instr.move (.invalid 0) (.reg 0) (.reg 0)).wellFormed = false ∧
    (Instr.loadLiteral (.imm 1) (.imm 1) (.reg 0)).wellFormed = false ∧
    (Instr.cmove (.imm 1) (.reg 1) (.reg 0)).wellFormed = false ∧ (Instr.not (.imm 1) (.reg 1) (.reg 0)).wellFormed = false ∧
    (Instr.load (.imm 1) (.reg 1) (.reg 0)).wellFormed = false := by decide

theorem test_wellFormed_refuses_destination_of_three :
    (Instr.add (.imm 0) (.reg 0) (.reg 0)).wellFormed = false ∧ (Instr.sub (.imm 0) (.reg 0) (.reg 0)).wellFormed = false ∧
    (Instr.mul (.imm 0) (.reg 0) (.reg 0)).wellFormed = false ∧ (Instr.div (.imm 0) (.reg 0) (.reg 0)).wellFormed = false ∧
    (Instr.and (.imm 0) (.reg 0) (.reg 0)).wellFormed = false ∧ (Instr.or (.imm 0) (.reg 0) (.reg 0)).wellFormed = false ∧
    (Instr.xor (.imm 0) (.reg 0) (.reg 0)).wellFormed = false ∧ (Instr.shl (.imm 0) (.reg 0) (.reg 0)).wellFormed = false ∧
    (Instr.shr (.imm 0) (.reg 0) (.reg 0)).wellFormed = false := by decide

theorem test_wellFormed_refuses_first_source :
    (Instr.write (.invalid 119) (.reg 0) (.reg 0)).wellFormed = false ∧
    (Instr.syscall (.invalid 0) (.reg 0) (.reg 0)).wellFormed = false ∧
    (Instr.store (.invalid 0) (.reg 0) (.reg 0)).wellFormed = false ∧
    (Instr.move (.reg 0) (.invalid 0) (.reg 0)).wellFormed = false ∧
    (Instr.loadLiteral (.reg 1) (.reg 5) (.reg 0)).wellFormed = false ∧
    (Instr.cmove (.reg 1) (.invalid 0) (.reg 0)).wellFormed = false ∧
    (Instr.not (.reg 1) (.invalid 0) (.reg 0)).wellFormed = false ∧
    (Instr.load (.reg 1) (.invalid 0) (.reg 0)).wellFormed = false := by decide

theorem test_wellFormed_refuses_first_of_two_sources :
    (Instr.add (.reg 0) (.invalid 0) (.reg 0)).wellFormed = false ∧ (Instr.sub (.reg 0) (.invalid 0) (.reg 0)).wellFormed = false ∧
    (Instr.mul (.reg 0) (.invalid 0) (.reg 0)).wellFormed = false ∧ (Instr.div (.reg 0) (.invalid 0) (.reg 0)).wellFormed = false ∧
    (Instr.and (.reg 0) (.invalid 0) (.reg 0)).wellFormed = false ∧ (Instr.or (.reg 0) (.invalid 0) (.reg 0)).wellFormed = false ∧
    (Instr.xor (.reg 0) (.invalid 0) (.reg 0)).wellFormed = false ∧ (Instr.shl (.reg 0) (.invalid 0) (.reg 0)).wellFormed = false ∧
    (Instr.shr (.reg 0) (.invalid 0) (.reg 0)).wellFormed = false := by decide

theorem test_wellFormed_refuses_second_source :
    (Instr.store (.reg 0) (.invalid 0) (.reg 0)).wellFormed = false ∧
    (Instr.cmove (.reg 0) (.reg 0) (.invalid 0)).wellFormed = false ∧ (Instr.add (.reg 0) (.reg 0) (.invalid 0)).wellFormed = false ∧
    (Instr.sub (.reg 0) (.reg 0) (.invalid 0)).wellFormed = false ∧ (Instr.mul (.reg 0) (.reg 0) (.invalid 0)).wellFormed = false ∧
    (Instr.div (.reg 0) (.reg 0) (.invalid 0)).wellFormed = false ∧ (Instr.and (.reg 0) (.reg 0) (.invalid 0)).wellFormed = false ∧
    (Instr.or (.reg 0) (.reg 0) (.invalid 0)).wellFormed = false ∧ (Instr.xor (.reg 0) (.reg 0) (.invalid 0)).wellFormed = false ∧
    (Instr.shl (.reg 0) (.reg 0) (.invalid 0)).wellFormed = false ∧ (Instr.shr (.reg 0) (.reg 0) (.invalid 0)).wellFormed = false := by
  decide

/-- Unused positions take any byte (30_encoding.md R49). -/
theorem test_wellFormed_admits_unused_bytes :
    (Instr.halt (.invalid 0) (.imm 3) (.reg 7)).wellFormed = true ∧ (Instr.syscall (.imm 2) (.invalid 1) (.invalid 2)).wellFormed = true ∧
    (Instr.load (.reg 7) (.imm 127) (.invalid 5)).wellFormed = true := by decide

/-! ### Decode: a word for every constructor, from the rows of 30_encoding.md R52 and of 95_test_vectors.md -/

/-- V87, V90, V80, V84. -/
theorem test_decode_device :
    decodeTableWord 32 0x00000000 = some (.halt (.reg 0) (.reg 0) (.reg 0)) ∧
    decodeTableWord 32 0x01000000 = some (.unreachable (.reg 0) (.reg 0) (.reg 0)) ∧
    decodeTableWord 32 0x02040000 = some (.read (.reg 4) (.reg 0) (.reg 0)) ∧
    decodeTableWord 32 0x03060000 = some (.write (.reg 6) (.reg 0) (.reg 0)) := by decide

/-- V2, V6, V9. -/
theorem test_decode_moves :
    decodeTableWord 32 0x0403FF00 = some (.move (.reg 3) (.imm 127) (.reg 0)) ∧
    decodeTableWord 32 0x0501FF00 = some (.loadLiteral (.reg 1) (.imm 127) (.reg 0)) ∧
    decodeTableWord 32 0x06078201 = some (.cmove (.reg 7) (.imm 2) (.reg 1)) := by decide

/-- V13, V16, V19, V20, V27. -/
theorem test_decode_arithmetic :
    decodeTableWord 32 0x07070783 = some (.add (.reg 7) (.reg 7) (.imm 3)) ∧
    decodeTableWord 32 0x08070784 = some (.sub (.reg 7) (.reg 7) (.imm 4)) ∧
    decodeTableWord 32 0x090102E4 = some (.mul (.reg 1) (.reg 2) (.imm 100)) ∧
    decodeTableWord 32 0x0A010203 = some (.div (.reg 1) (.reg 2) (.reg 3)) ∧
    decodeTableWord 32 0x0B0102FF = some (.and (.reg 1) (.reg 2) (.imm 127)) := by decide

/-- V28, V29, V31, V35, V39. -/
theorem test_decode_bitwise :
    decodeTableWord 32 0x0C010203 = some (.or (.reg 1) (.reg 2) (.reg 3)) ∧
    decodeTableWord 32 0x0D010203 = some (.xor (.reg 1) (.reg 2) (.reg 3)) ∧
    decodeTableWord 32 0x0E018000 = some (.not (.reg 1) (.imm 0) (.reg 0)) ∧
    decodeTableWord 32 0x0F0102A0 = some (.shl (.reg 1) (.reg 2) (.imm 32)) ∧
    decodeTableWord 32 0x1001029F = some (.shr (.reg 1) (.reg 2) (.imm 31)) := by decide

/-- V60, V68, V100, V102, V105. -/
theorem test_decode_memory_and_kernel :
    decodeTableWord 32 0x1103E400 = some (.load (.reg 3) (.imm 100) (.reg 0)) ∧
    decodeTableWord 32 0x12FF0200 = some (.store (.imm 127) (.reg 2) (.reg 0)) ∧
    decodeTableWord 32 0x13000000 = some (.configureTraps (.reg 0) (.reg 0) (.reg 0)) ∧
    decodeTableWord 32 0x14000000 = some (.enterUserMode (.reg 0) (.reg 0) (.reg 0)) ∧
    decodeTableWord 32 0x15060000 = some (.syscall (.reg 6) (.reg 0) (.reg 0)) := by decide

/-- V110, V111, V112, V113, V114, V115, V116. -/
theorem test_decode_refuses :
    decodeTableWord 32 0x16000000 = none ∧ decodeTableWord 32 0xFF000000 = none ∧ decodeTableWord 32 0x07080000 = none ∧
    decodeTableWord 32 0x07800000 = none ∧ decodeTableWord 32 0x07000800 = none ∧ decodeTableWord 32 0x05010500 = none ∧
    decodeTableWord 32 0x02800000 = none := by decide

/-- S1: the words of the encoding examples. -/
theorem test_encode :
    encode (.add (.reg 2) (.reg 2) (.reg 1)) = 0x07020201 ∧ encode (.store (.reg 2) (.imm 100) (.reg 0)) = 0x1202E400 ∧
    encode (.syscall (.imm 2) (.reg 0) (.reg 0)) = 0x15820000 ∧ encode (.halt (.imm 127) (.imm 127) (.imm 127)) = 0x00FFFFFF := by
  decide

/-! ### One step of each instruction -/

/-- The common start state of 95_test_vectors.md part 2, with `w` at `at'`. -/
def start (m : Mode) (at' w : Word) : State :=
  ((((State.reset.setInQueue []).setMode m).setTrapCfg ⟨16, 120, 121, 122⟩).setIp at').setCell at' w

/-- What one step leaves, looked at through `f`. -/
def after {α : Type} (s : State) (f : State → α) : Option α :=
  match step s with
  | .next t => some (f t)
  | .fault _ => none
  | .refused _ => none

/-- Mode, instruction pointer, reason cell, return cell: what a trap row of the vectors lists. -/
def trapView (s : State) : Mode × Word × Word × Word := (s.mode, s.ip, s.cell 121, s.cell 122)

/-- V87, with the outcome `Done(true)`: halted and no error. -/
theorem test_halt : after (start .kernel 10 0x00000000) (fun t => (t.halted, t.report, t.ip)) = some (true, none, 11) := by decide

/-- V89. -/
theorem test_halt_user :
    after (start .user 1100 0x00000000) (fun t => (t.halted, trapView t, t.counter)) =
      some (false, (.kernel, 16, 3, 1101), 1) := by decide

/-- V90. -/
theorem test_unreachable :
    after (start .kernel 9 0x01000000) (fun t => (t.halted, t.report, t.ip)) = some (true, some .unreachable, 10) := by decide

/-- V91. -/
theorem test_unreachable_user :
    after (start .user 1100 0x01000000) (fun t => (t.halted, trapView t)) = some (false, (.kernel, 16, 3, 1101)) := by decide

/-- V81: zero-extended. -/
theorem test_read :
    after (((start .kernel 10 0x02040000).setReg 4 0xFFFFFFFF).setInQueue [0xFF]) (fun t => (t.reg 4, t.ip, t.inQueue)) =
      some (0xFF, 11, []) := by decide

/-- V83: no byte consumed. -/
theorem test_read_user :
    after ((start .user 1100 0x02040000).setInQueue [0x15]) (fun t => (trapView t, t.reg 4, t.inQueue)) =
      some ((.kernel, 16, 3, 1101), 0, [0x15]) := by decide

/-- V84: the low 8 bits. -/
theorem test_write :
    after ((start .kernel 10 0x03060000).setReg 6 0x141) (fun t => (t.outLog, t.ip)) = some ([0x41], 11) := by decide

/-- V86. -/
theorem test_write_user :
    after ((start .user 1100 0x03060000).setReg 6 0x41) (fun t => (trapView t, t.outLog)) =
      some ((.kernel, 16, 3, 1101), []) := by decide

/-- V4: register 7 reads incremented. -/
theorem test_move_ip : after (start .kernel 10 0x04070700) State.ip = some 11 := by decide

/-- V44. -/
theorem test_move_ip_gated :
    after (((start .user 1100 0x04070200).setReg 2 1023).setReg 0 0x33) (fun t => (trapView t, t.stash)) =
      some ((.kernel, 16, 2, 1101), 0x33) := by decide

/-- V6. -/
theorem test_loadLiteral : after (start .kernel 10 0x0501FF00) (fun t => (t.reg 1, t.ip)) = some (127, 11) := by decide

/-- V47. -/
theorem test_loadLiteral_gated :
    after (start .user 1100 0x0507E400) trapView = some (.kernel, 16, 2, 1101) := by decide

/-- V8: any nonzero condition. -/
theorem test_cmove :
    after ((((start .kernel 10 0x06010203).setReg 1 1).setReg 2 7).setReg 3 0x80000000) (fun t => (t.reg 1, t.ip)) =
      some (7, 11) := by decide

/-- V48: a zero condition writes nothing and is not checked. -/
theorem test_cmove_zero_user :
    after (start .user 1100 0x06078501) (fun t => (t.ip, t.mode, t.counter)) = some (1101, .user, 1) := by decide

/-- V11: wraps. -/
theorem test_add :
    after ((((start .kernel 10 0x07010203).setReg 1 5).setReg 2 0xFFFFFFFF).setReg 3 1) (fun t => (t.reg 1, t.ip)) =
      some (0, 11) := by decide

/-- V51: 2045 + 3 is one past the user region. -/
theorem test_add_gated : after (start .user 2044 0x07070783) trapView = some (.kernel, 16, 2, 2045) := by decide

/-- V14: wraps. -/
theorem test_sub :
    after ((start .kernel 10 0x08010203).setReg 3 1) (fun t => (t.reg 1, t.ip)) = some (0xFFFFFFFF, 11) := by decide

/-- V53: 1101 - 78 is one below the user region. -/
theorem test_sub_gated : after (start .user 1100 0x080707CE) trapView = some (.kernel, 16, 2, 1101) := by decide

/-- V19. -/
theorem test_mul :
    after ((start .kernel 10 0x090102E4).setReg 2 0x12345678) (fun t => (t.reg 1, t.ip)) = some (0x1C71C6E0, 11) := by decide

/-- V22: unsigned. -/
theorem test_div :
    after ((start .kernel 10 0x0A010281).setReg 2 0xFFFFFFFF) (fun t => (t.reg 1, t.ip)) = some (0xFFFFFFFF, 11) := by decide

/-- V54: division by zero in USER mode is an error and no trap. -/
theorem test_div_zero_user :
    after ((start .user 1100 0x0A070280).setReg 2 4096) (fun t => (t.halted, t.report, t.mode, t.ip)) =
      some (true, some .divideByZero, .user, 1101) := by decide

/-- V26. -/
theorem test_and :
    after (((start .kernel 10 0x0B010203).setReg 2 0xF0F0F0F0).setReg 3 0xFF00FF00) (fun t => t.reg 1) =
      some 0xF000F000 := by decide

/-- V28. -/
theorem test_or :
    after (((start .kernel 10 0x0C010203).setReg 2 0xF0F0F0F0).setReg 3 0x0F0F0000) (fun t => t.reg 1) =
      some 0xFFFFF0F0 := by decide

/-- V29. -/
theorem test_xor :
    after (((start .kernel 10 0x0D010203).setReg 2 0xF0F0F0F0).setReg 3 0xFF00FF00) (fun t => t.reg 1) =
      some 0x0FF00FF0 := by decide

/-- V57. -/
theorem test_not_user :
    after ((start .user 1100 0x0E070200).setReg 2 0xFFFFFBFF) (fun t => (t.ip, t.mode)) = some (1024, .user) := by decide

/-- V34. -/
theorem test_shl :
    after ((start .kernel 10 0x0F01029F).setReg 2 3) (fun t => (t.reg 1, t.ip)) = some (0x80000000, 11) := by decide

/-- V36: the whole 32-bit amount counts. -/
theorem test_shl_past_width :
    after ((((start .kernel 10 0x0F010203).setReg 1 9).setReg 2 0xFFFFFFFF).setReg 3 0xFFFFFFFF) (fun t => t.reg 1) = some 0 := by
  decide

/-- V38: logical. -/
theorem test_shr :
    after ((start .kernel 10 0x10010281).setReg 2 0x80000001) (fun t => (t.reg 1, t.ip)) = some (0x40000000, 11) := by decide

/-- V40. -/
theorem test_shr_width :
    after (((start .kernel 10 0x100102A0).setReg 1 9).setReg 2 0xFFFFFFFF) (fun t => t.reg 1) = some 0 := by decide

/-- V62: the address is the incremented instruction pointer. -/
theorem test_load :
    after ((start .kernel 10 0x11010700).setCell 11 0x77) (fun t => (t.reg 1, t.ip)) = some (0x77, 11) := by decide

/-- V76: a value loaded into register 7 is not checked. -/
theorem test_load_ip_user :
    after (((start .user 1100 0x11070200).setReg 2 1500).setCell 1500 3) (fun t => (t.ip, t.mode)) = some (3, .user) := by
  decide

/-- V69: stores the incremented instruction pointer. -/
theorem test_store :
    after ((start .kernel 10 0x12070200).setReg 2 50) (fun t => (t.cell 50, t.ip)) = some (11, 11) := by decide

/-- V79: the cell holds the trap's return address and not the value. -/
theorem test_store_gated :
    after (((start .user 1100 0x12010200).setReg 1 0x55).setReg 2 122) trapView = some (.kernel, 16, 2, 1101) := by decide

/-- V100. -/
theorem test_configureTraps :
    after ((((((start .kernel 10 0x13000000).setTrapCfg ⟨0, 0, 0, 0⟩).setReg 0 16).setReg 1 120).setReg 2 121).setReg 3 122)
      (fun t => (t.trapCfg, t.ip)) = some (⟨16, 120, 121, 122⟩, 11) := by decide

/-- V101. -/
theorem test_configureTraps_user :
    after ((start .user 1100 0x13000000).setReg 0 1) (fun t => (trapView t, t.stash, t.trapCfg)) =
      some ((.kernel, 16, 3, 1101), 1, ⟨16, 120, 121, 122⟩) := by decide

/-- V102. -/
theorem test_enterUserMode :
    after ((((start .kernel 10 0x14000000).setReg 0 1024).setStash 7).setCounter 5)
      (fun t => (t.mode, t.ip, t.reg 0, t.counter, t.stash)) = some (.user, 1024, 7, 5, 7) := by decide

/-- V103. -/
theorem test_enterUserMode_user :
    after (((start .user 1100 0x14000000).setReg 0 1500).setStash 7) (fun t => (trapView t, t.stash, t.reg 0)) =
      some ((.kernel, 16, 3, 1101), 1500, 1500) := by decide

/-- V106: the argument is read before the trap. -/
theorem test_syscall_ip :
    after (start .user 1024 0x15070000) (fun t => (trapView t, t.cell 120, t.counter)) =
      some ((.kernel, 16, 0, 1025), 1025, 0) := by decide

/-- V109: three writes to one cell, the number last. -/
theorem test_syscall_one_cell :
    after ((start .user 1100 0x15890000).setTrapCfg ⟨16, 121, 121, 121⟩) (fun t => t.cell 121) = some 9 := by decide

/-! ### The step around the instruction -/

/-- V112, V111 and V116: a decode error leaves the instruction pointer, in USER mode counts and takes no trap. -/
theorem test_decode_errors :
    after (start .kernel 10 0x07080000) (fun t => (t.halted, t.report, t.ip)) = some (true, some (.decode .badArguments), 10) ∧
    after (start .user 1100 0xFF000000) (fun t => (t.report, t.mode, t.ip, t.counter)) =
      some (some (.decode .unknownOpcode), .user, 1100, 1) ∧
    after (start .user 1100 0x02800000) (fun t => (t.report, t.mode, t.ip, t.counter)) =
      some (some (.decode .badArguments), .user, 1100, 1) := by decide

/-- V117, V118 and V119: the bound on the instruction pointer, and the timer before it. -/
theorem test_ip_bounds :
    after ((start .kernel 10 0).setIp 2048) (fun t => (t.report, t.ip)) = some (some .ipBounds, 2048) ∧
    after ((start .user 10 0).setIp 2048) (fun t => (t.report, t.mode, t.counter)) = some (some .ipBounds, .user, 1) ∧
    after (((start .user 10 0).setIp 2048).setCounter 128) (fun t => (t.report, trapView t, t.counter)) =
      some (none, (.kernel, 16, 1, 2048), 0) := by decide

/-- T2, T4 and T7: the timer fires at 129 exactly. -/
theorem test_timer :
    after (((start .user 1025 0x07010181).setCounter 128).setReg 0 0xAA) (fun t => (trapView t, t.stash, t.counter, t.reg 1)) =
      some ((.kernel, 16, 1, 1025), 0xAA, 0, 0) ∧
    after ((start .user 1024 0x07010181).setCounter 129) (fun t => (t.counter, t.mode)) = some (130, .user) ∧
    after ((start .user 1024 0x15820000).setCounter 127) (fun t => (t.counter, trapView t)) =
      some (127, (.kernel, 16, 0, 1025)) := by decide

/-- V132, V133 and V134: a trap cell outside memory. -/
theorem test_trap_cell_outside :
    after ((start .user 1100 0).setTrapCfg ⟨16, 120, 121, 5000⟩) (fun t => (t.report, t.mode, t.ip, t.cell 121)) =
      some (some .dataBounds, .kernel, 1101, 0) ∧
    after (((start .user 1100 0).setTrapCfg ⟨16, 120, 5000, 122⟩).setReg 0 9) (fun t => (t.report, t.cell 122, t.ip, t.stash)) =
      some (some .dataBounds, 1101, 16, 0) ∧
    after ((((start .user 1100 0x15820000).setTrapCfg ⟨16, 5000, 121, 122⟩).setReg 0 9).setCounter 3)
      (fun t => (t.report, t.cell 122, t.ip, t.stash, t.counter)) = some (some .dataBounds, 1101, 16, 9, 4) := by decide

/-- V130: before `configure-traps`. -/
theorem test_trap_unconfigured :
    after ((start .user 1024 0x03C10000).setTrapCfg ⟨0, 0, 0, 0⟩) (fun t => (t.mode, t.cell 0, t.ip, t.counter)) =
      some (.kernel, 3, 0, 1) := by decide

/-- S7: the first step after reset runs the zero word, which is `halt`. -/
theorem test_first_step_after_reset :
    after State.reset (fun t => (t.halted, t.report, t.ip, t.mode)) = some (true, none, 1, .kernel) := by decide

/-- A placed word is the first one to run after reset (V2's word). -/
theorem test_withFetchWord :
    after (State.reset.withFetchWord 32 0x0403FF00) (fun t => (t.reg 3, t.ip)) = some (127, 1) := by decide

/-- S4: of two guards the one attached last is first in the chain. -/
theorem test_guard_order :
    ((((Registry.register [] (tableRow "halt" .halt .unused .unused .unused)).1.attach 0 GuardName.address).attach 0
      .ipWrite)[0]?).map Definition.guards = some [.ipWrite, .address] := by decide

/-- S1: the mnemonic's position is its opcode. -/
theorem test_encodeIn :
    encodeIn registry "add" 2 2 1 = 0x07020201 ∧ encodeIn registry "store" 2 0xE4 0 = 0x1202E400 ∧
    encodeIn registry "syscall" 0x82 0 0 = 0x15820000 := by decide

/-! ### An engine with an appended instruction and an attached guard (30_encoding.md R55, 40_step_cycle.md R61, R65) -/

/-- A definition with no validator that writes 99 to the register its first argument names. -/
def extension : Definition InterceptionGuard Behaviour :=
  ⟨"ninety-nine", none, [], fun _ a0 _ _ s => (writeDest a0 99 s).result⟩

/-- A guard that skips every invocation, leaving a mark in register 6. -/
def skipGuard : InterceptionGuard := fun _ _ _ _ s => ⟨s.setReg 6 1, true, none⟩

/-- A guard that returns an error, with a skip that does not count. -/
def errorGuard : InterceptionGuard := fun _ _ _ _ s => ⟨s, true, some (.returned "extension")⟩

/-- What one step of an engine of another configuration leaves, looked at through `f`. -/
def afterIn {α : Type} (c : Configuration) (s : State) (f : State → α) : Option α :=
  match stepIn c s with
  | .next t => some (f t)
  | .fault _ => none
  | .refused _ => none

/-- Opcode 22 is unknown before the append (V110) and the appended definition's after it; opcode 23 stays unknown. -/
theorem test_appended_definition :
    afterIn .reference (start .kernel 10 0x16050000) (fun t => (t.report, t.ip)) =
      some (some (.decode .unknownOpcode), 10) ∧
    afterIn (Configuration.reference.register extension) (start .kernel 10 0x16050000) (fun t => (t.reg 5, t.ip)) =
      some (99, 11) ∧
    afterIn (Configuration.reference.register extension) (start .kernel 10 0x17050000) State.report =
      some (some (.decode .unknownOpcode)) := by decide

/-- A guard attached to `add`: skip ends the step without the addition; a returned error halts as
`GuardError`, whatever skip says (S4). -/
theorem test_attached_guard :
    afterIn (Configuration.reference.attach 7 skipGuard) (start .kernel 10 0x07010181) (fun t => (t.reg 1, t.reg 6, t.ip)) =
      some (0, 1, 11) ∧
    afterIn (Configuration.reference.attach 7 errorGuard) (start .kernel 10 0x07010181) (fun t => (t.reg 1, t.report)) =
      some (0, some (.guardError "extension")) ∧
    afterIn ((Configuration.reference.attach 7 errorGuard).attach 7 skipGuard) (start .kernel 10 0x07010181) State.report =
      some none := by decide

/-- A configuration of 64 words whose timer fires at 3: the user region ends at 64 and the third USER-mode step traps. -/
def smallParams : Params :=
  ⟨64, 32, 64, 32, 3, timerReaches, [0x0501FF00], [0x15820000]⟩

theorem test_other_parameters :
    afterIn (.ofParams smallParams) ((start .kernel 10 0).setIp 64) State.report = some (some .ipBounds) ∧
    afterIn (.ofParams smallParams) (((start .user 40 0x07010181).setTrapCfg ⟨16, 20, 21, 22⟩).setCounter 2)
      (fun t => (t.mode, t.ip, t.cell 21, t.cell 22, t.counter)) = some (.kernel, 16, 1, 40, 0) ∧
    afterIn (.ofParams smallParams) (((start .user 40 0x11010200).setTrapCfg ⟨16, 20, 21, 22⟩).setReg 2 31)
      (fun t => (t.mode, t.ip, t.cell 21)) = some (.kernel, 16, 2) := by decide

/-- S11: the frames of the example payloads. -/
theorem test_frame :
    frame [] = [0, 0] ∧ frame [0] = [0, 1, 0, 0, 0, 0] ∧
    frame [0x15820000, 0x03C10000] = [0, 2, 0x15, 0x82, 0, 0, 0x03, 0xC1, 0, 0] := by decide

/-! ### Witnesses: the hypotheses of each statement are met together, each clause at the ends of its range

`witness_<Name>` is for `Obligations.<Name>`. -/

/-- A KERNEL-mode and a USER-mode state, with the trap cells 120 to 122 and canonical memory; in USER mode the instruction
pointer is the last cell of memory. -/
abbrev kernelState : State := (start .kernel 10 0x00000000).setReg 2 2047
abbrev userState : State := (start .user 2047 0x04070200).setReg 2 1024

theorem witness_DecodeAndEncodeAgree :
    Instr.wellFormed (.add (.reg 7) (.imm 127) (.reg 0)) = true ∧ Instr.wellFormed (.halt (.invalid 119) (.invalid 0) (.imm 0)) = true ∧
    decode 0x15FFFFFF = .ok (.syscall (.imm 127) (.imm 127) (.imm 127)) := ⟨rfl, rfl, rfl⟩

theorem witness_DecodeFollowsTheRegistry :
    registry.length ≤ (Word.opcodeField 0x16000000).toNat ∧
    ∃ d, registry[(Word.opcodeField 0x15000000).toNat]? = some d ∧
      d.accepts (Arg.ofByte 0x80) (Arg.ofByte 0x00) (Arg.ofByte 0x00) = true ∧
      d.accepts (Arg.ofByte 0x7F) (Arg.ofByte 0x00) (Arg.ofByte 0x00) = false := ⟨by decide, _, rfl, rfl, rfl⟩

theorem witness_DecodedIsWellFormed :
    decode 0x15000000 = .ok (.syscall (.reg 0) (.reg 0) (.reg 0)) ∧ decode 0x16000000 = .error .unknownOpcode ∧
    22 ≤ (Word.opcodeField 0x16000000).toNat := ⟨rfl, rfl, by decide⟩

theorem witness_RegisterAppendsAndAttachLayers :
    21 < registry.length ∧ (∃ d, registry[21]? = some d ∧ d.name = "syscall") ∧ (20 : Nat) ≠ 21 ∧
    ((gate .halt .privileged reference (.reg 0) (.reg 0) (.reg 0) kernelState).error = none ∧
      (gate .halt .privileged reference (.reg 0) (.reg 0) (.reg 0) kernelState).skip = false) :=
  ⟨by decide, ⟨_, rfl, rfl⟩, by decide, by decide⟩

/-- Each of the three errors, a skip and a pass. -/
theorem witness_GuardChainRunsInOrder :
    (errorGuard reference (.reg 0) (.reg 0) (.reg 0) userState).error = some (.returned "extension") ∧
    (addrGate reference (.invalid 0) userState).error = some .invalidOperand ∧
    (privGate reference (userState.setTrapCfg ⟨0, 0, 0, 2048⟩)).error = some .dataBounds ∧
    ((privGate reference userState).error = none ∧ (privGate reference userState).skip = true) ∧
    ((privGate reference kernelState).error = none ∧ (privGate reference kernelState).skip = false) := by decide

theorem witness_ArgumentByteMeaning :
    (0 : Byte).toNat = (0 : Reg).val ∧ (7 : Byte).toNat = (7 : Reg).val ∧ (8 ≤ (8 : Byte).toNat ∧ (8 : Byte).toNat < 128) ∧
    (8 ≤ (127 : Byte).toNat ∧ (127 : Byte).toNat < 128) ∧ 128 ≤ (128 : Byte).toNat ∧ 128 ≤ (255 : Byte).toNat := by decide

theorem witness_ResolveOfAByte :
    (7 : Byte).toNat = (7 : Reg).val ∧ (8 ≤ (8 : Byte).toNat ∧ (127 : Byte).toNat < 128) ∧ 128 ≤ (128 : Byte).toNat := by decide

theorem witness_RegistersReadBack : (0 : Reg) ≠ 7 ∧ (6 : Reg) ≠ 7 := by decide

theorem witness_MemoryReadsBack :
    kernelState.mem.wf reference.memWords ∧ userState.mem.wf reference.memWords ∧ (2046 : Word) ≠ 2047 ∧ inMemory reference 2047 = true ∧ inMemory reference 2048 = false := by decide

theorem witness_CanonicalMemoryIsDeterminedByReads :
    ∃ m n : Memory, m ≠ [] ∧ m.wf 2048 ∧ n.wf 2048 ∧ ∀ a, a < 2048 → m.get a = n.get a :=
  ⟨[(2047, 1)], [(2047, 1)], by decide, by decide, by decide, fun _ _ => rfl⟩

theorem witness_MoveAndLoadLiteralResults :
    resolve (.reg 2) userState = .ok 1024 ∧ ipWriteAllowed userState ipReg 1024 ∧ ipWriteAllowed userState ipReg 2047 ∧
    ¬ ipWriteAllowed userState ipReg 2048 ∧ ¬ ipWriteAllowed userState ipReg (BitVec.ofNat 32 (127 : BitVec 7).toNat) ∧
    ipWriteAllowed userState 6 (BitVec.ofNat 32 (127 : BitVec 7).toNat) ∧
    ipWriteAllowed kernelState ipReg (BitVec.ofNat 32 (127 : BitVec 7).toNat) := ⟨rfl, by decide⟩

theorem witness_CmoveResult :
    resolve (.reg 2) userState = .ok 1024 ∧ resolve (.imm 1) userState = .ok 1 ∧ resolve (.imm 0) userState = .ok 0 ∧
    (1 : Word) ≠ 0 ∧ ipWriteAllowed userState ipReg 1024 := ⟨rfl, rfl, rfl, by decide⟩

theorem witness_AddSubMulResults :
    resolve (.reg 2) userState = .ok 1024 ∧ resolve (.imm 0) userState = .ok 0 ∧ resolve (.imm 1) userState = .ok 1 ∧
    ((1024 : Word) = BitVec.ofNat 32 ((1024 : Word).toNat + (0 : Word).toNat) ∧ ipWriteAllowed userState ipReg 1024) ∧
    ((1024 : Word) = BitVec.ofInt 32 (((1024 : Word).toNat : Int) - ((0 : Word).toNat : Int))) ∧
    ((1024 : Word) = BitVec.ofNat 32 ((1024 : Word).toNat * (1 : Word).toNat)) := ⟨rfl, rfl, rfl, by decide⟩

theorem witness_DivResult :
    resolve (.reg 2) userState = .ok 1024 ∧ resolve (.imm 1) userState = .ok 1 ∧ resolve (.imm 0) userState = .ok 0 ∧
    ((1 : Word) ≠ 0 ∧ (1024 : Word) = BitVec.ofNat 32 ((1024 : Word).toNat / (1 : Word).toNat) ∧
      ipWriteAllowed userState ipReg 1024) := ⟨rfl, rfl, rfl, by decide⟩

theorem witness_BitwiseResults :
    resolve (.reg 2) userState = .ok 1024 ∧ resolve (.reg 2) userState = .ok 1024 ∧ ipWriteAllowed userState ipReg 1024 ∧
    (∀ k, k < 32 → (1024 : Word).getLsbD k = ((1024 : Word).getLsbD k && (1024 : Word).getLsbD k)) ∧
    (∀ k, k < 32 → (1024 : Word).getLsbD k = ((1024 : Word).getLsbD k || (1024 : Word).getLsbD k)) ∧
    ipWriteAllowed userState 1 0 ∧
    (∀ k, k < 32 → (0 : Word).getLsbD k = ((1024 : Word).getLsbD k != (1024 : Word).getLsbD k)) ∧
    ipWriteAllowed userState 1 0xFFFFFBFF ∧
    (∀ k, k < 32 → (0xFFFFFBFF : Word).getLsbD k = !((1024 : Word).getLsbD k)) := ⟨rfl, rfl, by decide⟩

/-- Amounts 31 and 32. -/
theorem witness_ShiftResults :
    resolve (.reg 2) userState = .ok 1024 ∧ resolve (.imm 31) userState = .ok 31 ∧ resolve (.imm 32) userState = .ok 32 ∧
    (((31 : Word).toNat < 32 → (0 : Word) = BitVec.ofNat 32 ((1024 : Word).toNat * 2 ^ (31 : Word).toNat)) ∧
      (32 ≤ (31 : Word).toNat → (0 : Word) = 0) ∧ ipWriteAllowed userState 1 0) ∧
    (((32 : Word).toNat < 32 → (0 : Word) = BitVec.ofNat 32 ((1024 : Word).toNat * 2 ^ (32 : Word).toNat)) ∧
      (32 ≤ (32 : Word).toNat → (0 : Word) = 0)) ∧
    ((31 : Word).toNat < 32 → (0 : Word) = BitVec.ofNat 32 ((1024 : Word).toNat / 2 ^ (31 : Word).toNat)) ∧
    ((32 : Word).toNat < 32 → (0 : Word) = BitVec.ofNat 32 ((1024 : Word).toNat / 2 ^ (32 : Word).toNat)) :=
  ⟨rfl, rfl, rfl, by decide⟩

/-- Values 1023 and 2048, each just outside the user region. -/
theorem witness_IpWriteGateTraps :
    Instr.isData (.move (.reg 7) (.reg 2) (.reg 0)) = true ∧ userState.mode = .user ∧
    dataResult .move (.reg 2) (.reg 0) (userState.setReg 2 1023) = .ok (some 1023) ∧ inBounds reference 1023 = false ∧
    dataResult .move (.reg 2) (.reg 0) (userState.setReg 2 2048) = .ok (some 2048) ∧ inBounds reference 2048 = false :=
  ⟨rfl, rfl, rfl, by decide, rfl, by decide⟩

theorem witness_DataFrame :
    (∃ t, Instr.isData (.add (.reg 7) (.reg 2) (.imm 0)) = true ∧ Instr.wellFormed (.add (.reg 7) (.reg 2) (.imm 0)) = true ∧
      exec (.add (.reg 7) (.reg 2) (.imm 0)) userState = .next t ∧ t.mode = userState.mode) ∧
    (∃ t, Instr.wellFormed (.div (.reg 7) (.reg 2) (.imm 0)) = true ∧
      exec (.div (.reg 7) (.reg 2) (.imm 0)) userState = .next t ∧ t.mode = userState.mode) :=
  ⟨⟨_, rfl, rfl, rfl, rfl⟩, ⟨_, rfl, rfl, rfl⟩⟩

/-- Addresses 1024 and 2047, the ends of the user region. -/
theorem witness_LoadResult :
    effectiveAddress (.reg 2) userState = .ok 1024 ∧ (1024 : Word).toNat < 2048 ∧ inBounds reference 1024 = true ∧
    effectiveAddress (.reg 2) (userState.setReg 2 2047) = .ok 2047 ∧ (2047 : Word).toNat < 2048 ∧ inBounds reference 2047 = true :=
  ⟨rfl, by decide, by decide, rfl, by decide⟩

theorem witness_StoreResult :
    userState.mem.wf reference.memWords ∧ resolve (.imm 127) userState = .ok 127 ∧ effectiveAddress (.reg 2) userState = .ok 1024 ∧
    (1024 : Word).toNat < 2048 ∧ inBounds reference 1024 = true := ⟨by decide, rfl, rfl, by decide⟩

theorem witness_AddressGate :
    (effectiveAddress (.reg 2) (userState.setReg 2 1023) = .ok 1023 ∧ inBounds reference 1023 = false) ∧
    (effectiveAddress (.reg 2) (userState.setReg 2 2048) = .ok 2048 ∧ inBounds reference 2048 = false) ∧
    (effectiveAddress (.reg 2) userState = .ok 1024 ∧ inBounds reference 1024 = true) ∧ userState.mode = .user ∧
    effectiveAddress (.reg 2) kernelState = .ok 2047 ∧ kernelState.mode = .kernel :=
  ⟨⟨rfl, by decide⟩, ⟨rfl, by decide⟩, ⟨rfl, by decide⟩, rfl, rfl, rfl⟩

/-- Address 2048, one past memory; 2047 is inside. -/
theorem witness_KernelAccessOutsideMemory :
    kernelState.mode = .kernel ∧ resolve (.imm 127) kernelState = .ok 127 ∧
    effectiveAddress (.reg 2) (kernelState.setReg 2 2048) = .ok 2048 ∧ 2048 ≤ (2048 : Word).toNat ∧
    ¬ 2048 ≤ (2047 : Word).toNat := ⟨rfl, rfl, rfl, by decide⟩

theorem witness_LoadAndStoreFrame :
    (∃ t, exec (.load (.reg 1) (.reg 2) (.reg 0)) userState = .next t ∧ t.mode = userState.mode) ∧
    (∃ t, exec (.store (.imm 127) (.reg 2) (.reg 0)) userState = .next t ∧ t.mode = userState.mode) ∧
    (∃ t, exec (.store (.imm 127) (.reg 2) (.reg 0)) (kernelState.setReg 2 2048) = .next t ∧ t.mode = kernelState.mode) ∧
    Instr.wellFormed (.load (.reg 1) (.reg 2) (.reg 0)) = true ∧ Instr.wellFormed (.store (.imm 127) (.reg 2) (.reg 0)) = true :=
  ⟨⟨_, rfl, rfl⟩, ⟨_, rfl, rfl⟩, ⟨_, rfl, rfl⟩, rfl, rfl⟩

theorem witness_PrivilegedGate :
    Instr.isPrivileged (.halt (.reg 0) (.reg 0) (.reg 0)) = true ∧ Instr.isPrivileged (.read (.reg 1) (.reg 0) (.reg 0)) = true ∧
    userState.mode = .user ∧ kernelState.mode = .kernel ∧ .privileged ∈ registry.guardsOf .write := by decide

theorem witness_ReadResult :
    (kernelState.mode = .kernel ∧ (kernelState.setInQueue [0xFF]).inQueue = 0xFF :: []) ∧
    (kernelState.inQueue = [] ∧ kernelState.inEof = true) ∧
    (State.inQueue { kernelState with inEof := false } = [] ∧ State.inEof { kernelState with inEof := false } = false) := by decide

theorem witness_WriteResult : kernelState.mode = .kernel ∧ resolve (.reg 2) kernelState = .ok 2047 := ⟨rfl, rfl⟩

theorem witness_HaltResult : kernelState.mode = .kernel ∧ userState.mode = .user ∧ userState.trapCellsInMemory reference := by decide

theorem witness_UnreachableResult : kernelState.mode = .kernel := rfl

theorem witness_ReadAndWriteFrame :
    (∃ t, exec (.read (.reg 7) (.reg 0) (.reg 0)) (kernelState.setInQueue [0xFF]) = .next t) ∧
    (∃ t, exec (.write (.reg 2) (.reg 0) (.reg 0)) kernelState = .next t) ∧
    Instr.wellFormed (.read (.reg 7) (.reg 0) (.reg 0)) = true ∧ Instr.wellFormed (.write (.reg 2) (.reg 0) (.reg 0)) = true :=
  ⟨⟨_, rfl⟩, ⟨_, rfl⟩, rfl, rfl⟩

theorem witness_ConfigureTrapsEffect : kernelState.mode = .kernel ∧ userState.mode = .user := ⟨rfl, rfl⟩

theorem witness_EnterUserModeEffect : kernelState.mode = .kernel ∧ userState.mode = .user := ⟨rfl, rfl⟩

/-- Three cells apart, and all three the same one. -/
theorem witness_SyscallEffect :
    (userState.mem.wf reference.memWords ∧ userState.trapCellsInMemory reference ∧ userState.trapCfg.sysnoCell.toNat < 2048 ∧
      userState.trapCfg.reasonCell ≠ userState.trapCfg.sysnoCell ∧ userState.trapCfg.retCell ≠ userState.trapCfg.sysnoCell ∧
      userState.trapCfg.retCell ≠ userState.trapCfg.reasonCell ∧ ¬ userState.isTrapCell 119) ∧
    resolve (.reg 7) userState = .ok 2047 ∧ State.trapCellsInMemory reference (userState.setTrapCfg ⟨16, 2047, 2047, 2047⟩) :=
  ⟨by decide, rfl, by decide⟩

/-- Cells apart, and both at the last cell of memory. -/
theorem witness_TrapDelivery :
    userState.mem.wf reference.memWords ∧ userState.trapCfg.retCell.toNat < reference.memWords ∧
    userState.trapCfg.reasonCell.toNat < reference.memWords ∧ userState.trapCfg.retCell ≠ userState.trapCfg.reasonCell ∧
    (userState.setTrapCfg ⟨16, 2047, 2047, 2047⟩).trapCfg.retCell.toNat < reference.memWords := by decide

/-- Delivery, each cell at 2048 in turn. -/
theorem witness_TrapCellOutsideMemory :
    reference.memWords ≤ (userState.setTrapCfg ⟨16, 120, 121, 2048⟩).trapCfg.retCell.toNat ∧
    userState.mem.wf reference.memWords ∧
    ((userState.setTrapCfg ⟨16, 120, 2048, 2047⟩).trapCfg.retCell.toNat < reference.memWords ∧
      reference.memWords ≤ (userState.setTrapCfg ⟨16, 120, 2048, 2047⟩).trapCfg.reasonCell.toNat) := by decide

/-- The hook's delivery, a gate's, and a `syscall`'s two failures, each at a cell one past memory. -/
theorem witness_TrapCellOutsideMemory_steps :
    (∃ t, deliverTrap reference .timer (((userState.setCounter 128).setTrapCfg ⟨0, 0, 0, 2048⟩).setCounter 129) =
      .err .dataBounds t) ∧
    (((start .user 1100 0).setTrapCfg ⟨16, 120, 121, 2048⟩).hookPasses reference
        (((start .user 1100 0).setTrapCfg ⟨16, 120, 121, 2048⟩).setCounter 1) ∧
      ((start .user 1100 0).setTrapCfg ⟨16, 120, 121, 2048⟩).fetches (.halt (.reg 0) (.reg 0) (.reg 0)) ∧
      Instr.gateFires (.halt (.reg 0) (.reg 0) (.reg 0)) userState .illegalInstruction ∧
      ∃ t, deliverTrap reference .illegalInstruction ((start .user 1101 0).setTrapCfg ⟨16, 120, 121, 2048⟩) =
        .err .dataBounds t) ∧
    (start .user 1100 0x15820000).fetches (.syscall (.imm 2) (.reg 0) (.reg 0)) ∧
    (∃ t, deliverTrap reference .syscall (userState.setTrapCfg ⟨16, 120, 2048, 122⟩) = .err .dataBounds t) ∧
    (∃ t, deliverTrap reference .syscall (userState.setTrapCfg ⟨16, 2048, 121, 122⟩) = .ok t) ∧
    2048 ≤ (userState.setTrapCfg ⟨16, 2048, 121, 122⟩).trapCfg.sysnoCell.toNat :=
  ⟨⟨_, rfl⟩, ⟨.inr ⟨rfl, by decide, rfl⟩, ⟨by decide, rfl⟩, .inl ⟨rfl, rfl⟩, _, rfl⟩, ⟨by decide, rfl⟩, ⟨_, rfl⟩, ⟨_, rfl⟩,
    by decide⟩

theorem witness_TrapBeforeConfiguration :
    0 < reference.memWords ∧ State.reset.mem.wf reference.memWords ∧ State.reset.trapCfg = ⟨0, 0, 0, 0⟩ ∧ (1 : Word) ≠ 0 := by
  decide

/-- Counters 127 and 128, and a trap cell at the end of memory and one past it. -/
theorem witness_PreExecuteHookBehaviour :
    kernelState.mode = .kernel ∧ userState.mode = .user ∧
    reference.timerFires ((userState.setCounter 127).counter + 1) reference.timerThreshold = false ∧
    reference.timerFires ((userState.setCounter 128).counter + 1) reference.timerThreshold = true ∧
    (∃ t, deliverTrap reference .timer ((userState.setCounter 128).setCounter 129) = .ok t) ∧
    (∃ t, deliverTrap reference .timer (((userState.setCounter 128).setTrapCfg ⟨0, 0, 0, 2048⟩).setCounter 129) = .err .dataBounds t) :=
  ⟨rfl, rfl, by decide, by decide, ⟨_, rfl⟩, ⟨_, rfl⟩⟩

theorem witness_TimerStep :
    (userState.setCounter 128).halted = false ∧ (userState.setCounter 128).mode = .user ∧
    (userState.setCounter 128).counter + 1 = 129 ∧ (userState.setCounter 128).mem.wf reference.memWords ∧
    (userState.setCounter 128).trapCellsInMemory reference := by decide

/-- Two steps that stay in USER mode: V42's `move r7 r2` placed at its own target. -/
theorem witness_PreemptionBound :
    ((start .user 1024 0x04070200).setReg 2 1024).mode = .user ∧ ((start .user 1024 0x04070200).setReg 2 1024).counter = 0 ∧
    (∀ k u, k ≤ 2 → steps k ((start .user 1024 0x04070200).setReg 2 1024) = .next u → u.mode = .user) ∧
    (∃ t, steps 2 ((start .user 1024 0x04070200).setReg 2 1024) = .next t) := by
  refine ⟨rfl, rfl, fun k u hk h => ?_, ⟨_, rfl⟩⟩
  obtain rfl | rfl | rfl : k = 0 ∨ k = 1 ∨ k = 2 := by omega
  all_goals
    cases h
    rfl

theorem witness_StepRunsTheDecodedInstruction :
    (kernelState.halted = false ∧ kernelState.hookPasses reference kernelState ∧
      kernelState.fetches (.halt (.reg 0) (.reg 0) (.reg 0))) ∧
    (userState.halted = false ∧ userState.hookPasses reference (userState.setCounter 1) ∧
      userState.fetches (.move (.reg 7) (.reg 2) (.reg 0))) ∧
    (userState.ip.toNat < Configuration.reference.memWords ∧
      ∃ d, decodeIn Configuration.reference.registry (userState.cell userState.ip) = .ok d) :=
  ⟨⟨rfl, .inl ⟨rfl, rfl⟩, by decide, rfl⟩, ⟨rfl, .inr ⟨rfl, by decide, rfl⟩, by decide, rfl⟩, by decide, _, rfl⟩

theorem witness_HaltedEngineHasNoStep : kernelState.halt.halted = true := rfl

/-- An instruction pointer of 2048, and at 2047 a word that decodes to nothing. -/
theorem witness_FetchErrorsHaltTheEngine :
    ((kernelState.setIp 2048).halted = false ∧ (kernelState.setIp 2048).hookPasses reference (kernelState.setIp 2048) ∧
      2048 ≤ (kernelState.setIp 2048).ip.toNat) ∧
    ((start .user 2047 0x16000000).hookPasses reference ((start .user 2047 0x16000000).setCounter 1) ∧
      (start .user 2047 0x16000000).ip.toNat < 2048 ∧
      decode ((start .user 2047 0x16000000).cell (start .user 2047 0x16000000).ip) = .error .unknownOpcode) :=
  ⟨⟨rfl, .inl ⟨rfl, rfl⟩, by decide⟩, ⟨.inr ⟨rfl, by decide, rfl⟩, by decide, rfl⟩⟩

theorem witness_DoneHaltedExactlyByHalt :
    kernelState.inv reference ∧ (∃ t, step kernelState = .next t ∧ t.halted = true ∧ t.report = none) ∧
    userState.inv reference ∧ (∃ t, step userState = .next t ∧ t.halted = false) :=
  ⟨by decide, ⟨_, rfl, rfl, rfl⟩, by decide, ⟨_, rfl, rfl⟩⟩

/-- An ordinary step, a `syscall` in KERNEL mode, and a trap from USER mode. -/
theorem witness_InstructionPointerAfterAStep :
    ((start .kernel 10 0x07010181).inv reference ∧ (start .kernel 10 0x07010181).fetches (.add (.reg 1) (.reg 1) (.imm 1)) ∧
      (Instr.add (.reg 1) (.reg 1) (.imm 1)).writesIp = false ∧
      ∃ t, step (start .kernel 10 0x07010181) = .next t ∧ t.report = none ∧ t.mode = .kernel) ∧
    ((start .kernel 20 0x15810000).fetches (.syscall (.imm 1) (.reg 0) (.reg 0)) ∧
      ∃ t, step (start .kernel 20 0x15810000) = .next t ∧ t.report = none ∧ t.mode = .kernel) ∧
    (∃ t, step (start .user 1100 0) = .next t ∧ t.report = none ∧ t.mode = .kernel) :=
  ⟨⟨by decide, ⟨by decide, rfl⟩, rfl, _, rfl, rfl, rfl⟩, ⟨⟨by decide, rfl⟩, _, rfl, rfl, rfl⟩, _, rfl, rfl, rfl⟩

theorem witness_StoredWordIsFetched :
    kernelState.mem.wf reference.memWords ∧ kernelState.halted = false ∧ kernelState.mode = .kernel ∧ resolve (.imm 0) kernelState = .ok 0 ∧
    effectiveAddress (.reg 7) kernelState = .ok 10 ∧ (10 : Word).toNat < 2048 ∧ kernelState.ip = 10 ∧
    (∃ t, exec (.store (.imm 0) (.reg 7) (.reg 0)) kernelState = .next t) ∧ decode 0 = .ok (.halt (.reg 0) (.reg 0) (.reg 0)) :=
  ⟨by decide, rfl, rfl, rfl, rfl, by decide, rfl, ⟨_, rfl⟩, rfl⟩

/-- Into USER mode by `enter-user-mode`; out of it by the timer, by each gate, by `syscall`, and by a trap whose cell is
outside memory. -/
theorem witness_ModeChangesOnlyAsStated :
    (∃ t, step (start .kernel 10 0x14000000) = .next t ∧ t.mode = .user) ∧
    (∃ t, step ((start .user 1100 0).setCounter 128) = .next t ∧ t.mode = .kernel) ∧
    (∃ t, step (start .user 1100 0) = .next t ∧ t.mode = .kernel) ∧
    (∃ t, step (start .user 1100 0x12010200) = .next t ∧ t.mode = .kernel) ∧
    (∃ t, step (start .user 1100 0x04070200) = .next t ∧ t.mode = .kernel) ∧
    (∃ t, step (start .user 1100 0x15820000) = .next t ∧ t.mode = .kernel) ∧
    (∃ t, step ((start .user 1100 0).setTrapCfg ⟨0, 0, 0, 2048⟩) = .next t ∧ t.mode = .kernel) :=
  ⟨⟨_, rfl, rfl⟩, ⟨_, rfl, rfl⟩, ⟨_, rfl, rfl⟩, ⟨_, rfl, rfl⟩, ⟨_, rfl, rfl⟩, ⟨_, rfl, rfl⟩, ⟨_, rfl, rfl⟩⟩

theorem witness_ControlStateWriters :
    (∃ t, step (start .kernel 10 0x13000000) = .next t ∧ t.trapCfg ≠ (start .kernel 10 0x13000000).trapCfg) ∧
    (∃ t, step ((start .kernel 20 0x15810000).setReg 0 5) = .next t ∧ t.stash ≠ ((start .kernel 20 0x15810000).setReg 0 5).stash) ∧
    (∃ t, step ((start .user 1100 0).setReg 0 5) = .next t ∧ t.stash ≠ ((start .user 1100 0).setReg 0 5).stash) :=
  ⟨⟨_, rfl, by decide⟩, ⟨_, rfl, by decide⟩, ⟨_, rfl, by decide⟩⟩

theorem witness_CounterRule :
    (∃ t, step (start .kernel 20 0x15810000) = .next t ∧ t.counter = 0xFFFFFFFF) ∧
    (∃ t, step ((start .user 1024 0x07010181).setCounter 127) = .next t ∧ t.counter = 128) ∧
    (∃ t, step ((start .user 1024 0x07010181).setCounter 128) = .next t ∧ t.counter = 0) ∧
    (∃ t, step ((start .user 1024 0x15820000).setCounter 127) = .next t ∧ t.counter = 127) :=
  ⟨⟨_, rfl, rfl⟩, ⟨_, rfl, rfl⟩, ⟨_, rfl, rfl⟩, ⟨_, rfl, rfl⟩⟩

/-- A store at 1024 that completes; 1023 is outside the region and no trap cell. -/
theorem witness_UserStepKeepsKernelMemory :
    (start .user 1100 0x12FF0200).mode = .user ∧ (∃ t, step ((start .user 1100 0x12FF0200).setReg 2 1024) = .next t ∧ t.mode = .user) ∧
    (1023 : Word).toNat < 1024 ∧ 2048 ≤ (2048 : Word).toNat ∧ ¬ (start .user 1100 0x12FF0200).isTrapCell 1023 ∧
    ¬ (start .user 1100 0x12FF0200).isTrapCell 2048 :=
  ⟨rfl, ⟨_, rfl, rfl⟩, by decide⟩

theorem witness_UserStepKeepsDevices :
    (∃ t, step (start .user 1100 0x03060000) = .next t ∧ t.halted = false) ∧
    (∃ t, step (start .user 1100 0x0A070280) = .next t ∧ t.halted = true) := ⟨⟨_, rfl, rfl⟩, ⟨_, rfl, rfl⟩⟩

theorem witness_EveryStepKeepsTheInvariant :
    userState.inv reference ∧ (∃ t, step userState = .next t) ∧ (start .kernel 9 0x01000000).inv reference ∧
    (∃ t, step (start .kernel 9 0x01000000) = .next t ∧ t.report.isSome = true) :=
  ⟨by decide, ⟨_, rfl⟩, by decide, ⟨_, rfl, rfl⟩⟩

/-- Images of 0, 1024 and 1025 words; payloads of 0, 65535 and 65536 words. -/
theorem witness_BootState :
    (reference.valid ∧ reference.bootImage.length ≤ reference.kernelWords ∧ reference.payload.length ≤ 65535) ∧
    (List.replicate 1024 (0 : Word)).length ≤ reference.kernelWords ∧
    reference.kernelWords < (List.replicate 1025 (0 : Word)).length ∧ (List.replicate 65535 (0 : Word)).length ≤ 65535 ∧
    65535 < (List.replicate 65536 (0 : Word)).length := by
  simp only [List.length_replicate]
  decide

theorem witness_FrameLayout :
    [(0x15820000 : Word), 0x03C10000].length ≤ 65535 ∧ [(0x15820000 : Word), 0x03C10000][1]? = some 0x03C10000 := by
  decide

theorem witness_HostAppendsKeepOrder :
    State.inEof { kernelState with inEof := false } = false ∧ ∃ t u, hostAppend [1, 2] { kernelState with inEof := false } = some t ∧ hostAppend [3] t = some u := ⟨rfl, _, _, rfl, rfl⟩

/-- V82b. -/
theorem witness_HoldIsLiftedByAnAppend :
    step { start .kernel 10 0x02040000 with inEof := false } = .fault .inputHold ∧
    (∃ t, hostAppend (0x15 :: []) { start .kernel 10 0x02040000 with inEof := false } = some t) := ⟨rfl, ⟨_, rfl⟩⟩

/-- Opcode 22, the length of the reference registry, with arguments one validator accepts and another does not. -/
theorem witness_RegisteredDefinitionRuns :
    (start .kernel 10 0x16050000).halted = false ∧
    (start .kernel 10 0x16050000).hookPasses Configuration.reference.toParams (start .kernel 10 0x16050000) ∧
    (start .kernel 10 0x16050000).ip.toNat < Configuration.reference.memWords ∧
    (Word.opcodeField ((start .kernel 10 0x16050000).cell (start .kernel 10 0x16050000).ip)).toNat =
      Configuration.reference.registry.length ∧
    extension.accepts (.reg 5) (.reg 0) (.reg 0) = true ∧
    (tableRow "strict" .halt .imm .unused .unused).accepts (.reg 5) (.reg 0) (.reg 0) = false ∧
    (Word.opcodeField 0x15000000).toNat ≠ Configuration.reference.registry.length :=
  ⟨rfl, .inl ⟨rfl, rfl⟩, by decide⟩

/-- `add`, opcode 7, behind a guard that returns an error, ones in which a primitive raises, one that skips, and one that
passes; opcode 22 has no definition. -/
theorem witness_AttachedGuardRunsFirst :
    (start .kernel 10 0x07010181).hookPasses Configuration.reference.toParams (start .kernel 10 0x07010181) ∧
    (∃ d, decodeIn Configuration.reference.registry ((start .kernel 10 0x07010181).cell 10) = .ok d) ∧
    ((start .kernel 10 0x07010181).cell 10).opcodeField.toNat = 7 ∧
    (errorGuard reference (.reg 1) (.reg 1) (.imm 1) (start .kernel 11 0)).error = some (.returned "extension") ∧
    (gate .halt .privileged reference (.reg 1) (.reg 1) (.imm 1) (userState.setTrapCfg ⟨0, 0, 0, 2048⟩)).error =
      some .dataBounds ∧
    (gate .load .address reference (.reg 1) (.invalid 0) (.imm 1) userState).error = some .invalidOperand ∧
    Configuration.reference.registry.length ≤ 22 ∧
    ((skipGuard reference (.reg 1) (.reg 1) (.imm 1) (start .kernel 11 0)).error = none ∧
      (skipGuard reference (.reg 1) (.reg 1) (.imm 1) (start .kernel 11 0)).skip = true) ∧
    ((gate .halt .privileged reference (.reg 1) (.reg 1) (.imm 1) (start .kernel 11 0)).error = none ∧
      (gate .halt .privileged reference (.reg 1) (.reg 1) (.imm 1) (start .kernel 11 0)).skip = false) :=
  ⟨.inl ⟨rfl, rfl⟩, ⟨_, rfl⟩, by decide, rfl, by decide, rfl, by decide, ⟨rfl, rfl⟩, rfl, rfl⟩

end Sys2Proof.Tests
end

section
/-! The step of the machine is the step of an engine of the reference configuration (00_scope.md R4): both decode with one
table, `decodeIn registry`, and differ in what they turn the decoded row into before they run it. -/

namespace Sys2Proof.Machine

/-- A decoded row comes from the registry that decoded it. -/
theorem mem_of_decodeIn_ok {G B : Type} {r : Registry G B} {w : Word} {d : Decoded G B} (h : decodeIn r w = .ok d) :
    d.definition ∈ r := by
  unfold decodeIn at h
  cases hr : r[w.opcodeField.toNat]? with
  | none => simp [hr] at h
  | some row =>
    simp only [hr] at h
    split at h
    · cases h
      exact List.mem_of_getElem? hr
    · cases h

/-- Two engines that decode with the same decoder, each turning its rows into a form of its own, take the same step where
every decoded row runs alike in both forms. -/
theorem stepWith_map_congr {α β γ : Type} {p : Params} {dec : Word → Except DecodeError γ} {f : γ → α} {g : γ → β}
    {runA : α → State → StepResult} {runB : β → State → StepResult}
    (same : ∀ w d, dec w = .ok d → ∀ s, runA (f d) s = runB (g d) s) (s : State) :
    stepWith p (fun w => (dec w).map f) runA s = stepWith p (fun w => (dec w).map g) runB s := by
  cases hh : s.halted with
  | true => simp [stepWith, beginStep, hh]
  | false =>
    cases he : (preExecuteHook p s).error with
    | some e => simp [stepWith, beginStep, hh, he]
    | none =>
      cases hs : (preExecuteHook p s).skip with
      | true => simp [stepWith, beginStep, hh, he, hs]
      | false =>
        cases hin : inMemory p (preExecuteHook p s).state.ip with
        | false => simp [stepWith, beginStep, fetchStage, hh, he, hs, hin]
        | true =>
          cases hd : dec ((preExecuteHook p s).state.cell (preExecuteHook p s).state.ip) with
          | error k => simp [stepWith, beginStep, fetchStage, hh, he, hs, hin, hd, Except.map]
          | ok d => simp [stepWith, beginStep, fetchStage, hh, he, hs, hin, hd, Except.map, same _ d hd]

/-- A row of the reference registry runs as its instruction does: its guards are those of its mnemonic. -/
theorem exec_instr_of_mem {d : Decoded GuardName Mnemonic} (h : d.definition ∈ registry) (s : State) :
    exec d.instr s = runDecoded reference ⟨installed d.definition, d.arg0, d.arg1, d.arg2⟩ s := by
  rw [Decoded.instr, exec_build, run, runDecoded_installed, registry_guards _ h]

/-- `stepIn` at the reference configuration (40_step_cycle.md R62, R64, R65). -/
theorem step_eq_stepIn_reference (s : State) : step s = stepIn .reference s := by
  have hdec : decodeIn Configuration.reference.registry = _ := funext (decodeIn_installed reference)
  rw [stepIn, hdec]
  exact stepWith_map_congr (fun w d hd => exec_instr_of_mem (mem_of_decodeIn_ok hd)) s

/-- Installing the reference table keeps the names of its rows. -/
theorem ofParams_registry_names (p : Params) :
    (Configuration.ofParams p).registry.map Definition.name = registry.map Definition.name := by
  simp [Configuration.ofParams, installed, Definition.interpret, Function.comp_def]

/-- The names of the opcode map, in the order of their opcodes (30_encoding.md R52; D3). -/
theorem registry_names : registry.map Definition.name =
    ["halt", "unreachable", "read", "write", "move", "loadLiteral", "cmove", "add", "sub", "mul", "div", "and", "or", "xor",
     "not", "shl", "shr", "load", "store", "configure-traps", "enter-user-mode", "syscall"] := by
  decide

/-- The reference sizes meet the constraints of 00_scope.md R4. -/
theorem reference_valid : reference.valid := by decide

/-- Settles O58: both steps decode with the reference table and run each of its rows alike; the parameters are read off the
reference configuration. -/
theorem stepIsTheReferenceStep : Obligations.StepIsTheReferenceStep := by
  unfold Obligations.StepIsTheReferenceStep
  have names := (ofParams_registry_names reference).trans registry_names
  exact ⟨step_eq_stepIn_reference, reference_valid, rfl, rfl, rfl, rfl, rfl, names⟩

end Sys2Proof.Machine
end

section
/-! What the ways out of USER mode and the pre-execute hook leave, for any parameters: the rules that the invariant and the
control state share. -/

namespace Sys2Proof.Machine

variable {p : Params} {s t : State}

/-- A sequence of effects ends the step in the state it leaves, an error raised on top where one failed. -/
theorem Effect.result_next {e : Effect} (h : e.result = .next t) : t = e.state ∨ ∃ k, t = e.state.raise k := by
  cases e with
  | ok s => exact .inl (next_inj h)
  | err k s => exact .inr ⟨k, next_inj h⟩

/-- A `syscall` leaves what trap delivery leaves, or that with one cell of memory written and the counter one down
(44_kernel_instructions.md R115). -/
theorem syscallEffect_state_cases (p : Params) (n : Word) (s : State) :
    (syscallEffect p n s).state = (deliverTrap p .syscall s).state ∨
    ∃ a, inMemory p a = true ∧
      (syscallEffect p n s).state = ((deliverTrap p .syscall s).state.setCell a n).setCounter (s.counter - 1) := by
  have hc := (deliverTrap_frame p .syscall s).counter
  unfold syscallEffect
  cases hd : deliverTrap p .syscall s with
  | err e s1 => exact .inl rfl
  | ok s1 =>
    simp only [hd, Effect.state] at hc
    rcases memWrite_cases p s1.trapCfg.sysnoCell n s1 with ⟨hin, hw⟩ | ⟨_, hw⟩
    · exact .inr ⟨_, hin, by simp [hw, hc, Effect.state]⟩
    · exact .inl (by simp [hw, Effect.state])

/-- Passing the hook is setting the counter: to what it was in KERNEL mode, to one more in USER mode. -/
theorem hookPasses_eq_setCounter {s1 : State} (h : s.hookPasses p s1) :
    ∃ c, s1 = s.setCounter c ∧ ((s.mode = .kernel ∧ c = s.counter) ∨ (s.mode = .user ∧ c = s.counter + 1)) := by
  rcases h with ⟨hk, rfl⟩ | ⟨hu, _, rfl⟩
  · exact ⟨s1.counter, rfl, .inl ⟨hk, rfl⟩⟩
  · exact ⟨s.counter + 1, rfl, .inr ⟨hu, rfl⟩⟩

end Sys2Proof.Machine
end

section
/-! The invariant (10_state.md R27, 60_exceptions.md R133; logs 25, 27): every operation keeps it, so every classified
instruction does, so every step does. -/

namespace Sys2Proof.Machine

variable {p : Params} {s t : State}

/-- The invariant looks at memory, the halted flag and the report only. -/
theorem State.inv_of_eq (h : s.inv p) (hm : t.mem = s.mem) (hh : t.halted = s.halted) (hr : t.report = s.report) :
    t.inv p := by
  simpa only [State.inv, hm, hh, hr] using h

/-- Raising an error also halts the engine. -/
theorem State.inv_raise (h : s.inv p) (e : HostError) : (s.raise e).inv p := ⟨h.1, fun _ => rfl⟩

theorem State.inv_halt (h : s.inv p) : s.halt.inv p := ⟨h.1, fun _ => rfl⟩

theorem State.inv_setCell (h : s.inv p) {a : Word} (ha : inMemory p a = true) (v : Word) : (s.setCell a v).inv p :=
  ⟨State.wf_setCell s h.1 ha v, h.2⟩

theorem TrapFrame.inv (f : TrapFrame p s t) (h : s.inv p) : t.inv p :=
  ⟨f.wf h.1, by simpa only [f.report, f.halted] using h.2⟩

theorem syscallEffect_inv (h : s.inv p) (n : Word) : (syscallEffect p n s).state.inv p := by
  have hd := (deliverTrap_frame p .syscall s).inv h
  rcases syscallEffect_state_cases p n s with hs | ⟨a, ha, hs⟩ <;> rw [hs]
  · exact hd
  · exact State.inv_of_eq (State.inv_setCell hd ha n) rfl rfl rfl

theorem Effect.inv_of_result {e : Effect} (h : e.state.inv p) (ht : e.result = .next t) : t.inv p := by
  rcases Effect.result_next ht with rfl | ⟨k, rfl⟩
  · exact h
  · exact State.inv_raise h k

theorem ExecStep.inv {i : Instr} (hx : ExecStep i s t) (h : s.inv reference) : t.inv reference := by
  cases hx with
  | nothing => exact h
  | error e => exact State.inv_raise h e
  | trap r _ _ _ ht => exact Effect.inv_of_result ((deliverTrap_frame reference r s).inv h) ht
  | setCell _ _ _ a v _ _ _ hin _ => exact State.inv_setCell h hin v
  | halt => exact State.inv_halt h
  | syscall _ _ _ n _ _ _ ht => exact Effect.inv_of_result (syscallEffect_inv h n) ht
  | setReg | read | write | configureTraps | enterUserMode => exact State.inv_of_eq h rfl rfl rfl

theorem StepCase.inv (hc : StepCase s t) (h : s.inv reference) : t.inv reference := by
  have counted (c : Word) : (s.setCounter c).inv reference := State.inv_of_eq h rfl rfl rfl
  have timed : (deliverTrap reference .timer (s.setCounter (s.counter + 1))).state.inv reference :=
    (deliverTrap_frame _ _ _).inv (counted _)
  cases hc with
  | timer r _ _ hd ht =>
    rw [hd] at timed
    exact ht ▸ State.inv_of_eq timed rfl rfl rfl
  | timerError r _ _ hd ht =>
    rw [hd] at timed
    exact ht ▸ State.inv_raise timed _
  | fetchError s1 e h1 ht _ =>
    obtain ⟨c, rfl, _⟩ := hookPasses_eq_setCounter h1
    exact ht ▸ State.inv_raise (counted c) e
  | instruction s1 i h1 _ hx =>
    obtain ⟨c, rfl, _⟩ := hookPasses_eq_setCounter h1
    exact (exec_cases hx).inv (State.inv_of_eq h rfl rfl rfl)

/-- Settles O51: the invariant is kept by each way a step can end. -/
theorem everyStepKeepsTheInvariant : Obligations.EveryStepKeepsTheInvariant := by
  unfold Obligations.EveryStepKeepsTheInvariant
  exact fun s t h hx => (step_cases hx).2.inv h

/-- Settles O52: no cell is listed and no error is reported. -/
theorem resetHasTheInvariant : Obligations.ResetHasTheInvariant := by
  unfold Obligations.ResetHasTheInvariant
  exact ⟨⟨List.Pairwise.nil, List.forall_mem_nil _⟩, nofun⟩

end Sys2Proof.Machine
end

section
/-! The control state (10_state.md R17 to R19): the trap configuration, the stash and the preemption counter. Only
`configure-traps`, a trap and `syscall` touch it once the hook has passed. -/

namespace Sys2Proof.Machine

variable {p : Params} {i : Instr} {s t : State}

/-- Entering KERNEL mode by a trap: the mode, the configuration and the stash of `t` against those of `s`. -/
structure KernelEntry (s t : State) : Prop where
  mode : t.mode = .kernel
  trapCfg : t.trapCfg = s.trapCfg
  stash : t.stash = s.stash ∨ t.stash = s.reg 0

theorem TrapFrame.kernelEntry (f : TrapFrame p s t) : KernelEntry s t := ⟨f.mode, f.trapCfg, f.stash⟩

theorem KernelEntry.raise (h : KernelEntry s t) (e : HostError) : KernelEntry s (t.raise e) := ⟨h.mode, h.trapCfg, h.stash⟩

/-- Trap delivery enters KERNEL mode and keeps the counter. -/
theorem deliverTrap_next_control {r : Reason} (h : (deliverTrap p r s).result = .next t) :
    KernelEntry s t ∧ t.counter = s.counter := by
  have f := deliverTrap_frame p r s
  rcases Effect.result_next h with rfl | ⟨k, rfl⟩
  · exact ⟨f.kernelEntry, f.counter⟩
  · exact ⟨f.kernelEntry.raise k, f.counter⟩

/-- `syscall` enters KERNEL mode; where it completes, the counter goes down by one. -/
theorem syscallEffect_next_control {n : Word} (h : (syscallEffect p n s).result = .next t) :
    KernelEntry s t ∧ (t.counter = s.counter ∨ t.counter = s.counter - 1) := by
  have f := deliverTrap_frame p .syscall s
  have left : KernelEntry s (syscallEffect p n s).state ∧
      ((syscallEffect p n s).state.counter = s.counter ∨ (syscallEffect p n s).state.counter = s.counter - 1) := by
    rcases syscallEffect_state_cases p n s with hs | ⟨a, _, hs⟩ <;> rw [hs]
    · exact ⟨f.kernelEntry, .inl f.counter⟩
    · exact ⟨⟨f.mode, f.trapCfg, f.stash⟩, .inr rfl⟩
  rcases Effect.result_next h with rfl | ⟨k, rfl⟩
  · exact left
  · exact ⟨left.1.raise k, left.2⟩

/-- What an instruction can do to the control state, with its condition. -/
theorem ExecStep.control_cases (hx : ExecStep i s t) :
    sameKernelState s t ∨
    (s.mode = .kernel ∧ (∃ u0 u1 u2, i = .configureTraps u0 u1 u2) ∧ t.counter = s.counter ∧ t.stash = s.stash) ∨
    (s.mode = .user ∧ KernelEntry s t ∧ t.counter = s.counter) ∨
    ((∃ num u1 u2, i = .syscall num u1 u2) ∧ KernelEntry s t ∧ (t.counter = s.counter ∨ t.counter = s.counter - 1)) := by
  cases hx with
  | configureTraps u0 u1 u2 hk hi => exact .inr (.inl ⟨hk, ⟨u0, u1, u2, hi⟩, rfl, rfl⟩)
  | trap r _ _ hu ht => exact .inr (.inr (.inl ⟨hu, deliverTrap_next_control ht⟩))
  | syscall num u1 u2 n _ hi _ ht => exact .inr (.inr (.inr ⟨⟨num, u1, u2, hi⟩, syscallEffect_next_control ht⟩))
  | nothing | error | setReg | setCell | read | write | halt | enterUserMode => exact .inl ⟨rfl, rfl, rfl⟩

/-- The trap configuration is written by a KERNEL-mode `configure-traps` only. -/
theorem ExecStep.trapCfg (hx : ExecStep i s t) :
    t.trapCfg = s.trapCfg ∨ (s.mode = .kernel ∧ ∃ u0 u1 u2, i = .configureTraps u0 u1 u2) := by
  rcases hx.control_cases with ⟨_, _, hcfg⟩ | ⟨hk, hi, _, _⟩ | ⟨_, he, _⟩ | ⟨_, he, _⟩
  · exact .inl hcfg
  · exact .inr ⟨hk, hi⟩
  · exact .inl he.trapCfg
  · exact .inl he.trapCfg

/-- The stash is written by a trap only: one a gate takes in USER mode, or a `syscall`'s. -/
theorem ExecStep.stash (hx : ExecStep i s t) :
    t.stash = s.stash ∨
    (t.stash = s.reg 0 ∧ t.mode = .kernel ∧ (s.mode = .user ∨ ∃ num u1 u2, i = .syscall num u1 u2)) := by
  rcases hx.control_cases with ⟨_, hst, _⟩ | ⟨_, _, _, hst⟩ | ⟨hu, he, _⟩ | ⟨hi, he, _⟩
  · exact .inl hst
  · exact .inl hst
  · exact he.stash.imp_right fun hst => ⟨hst, he.mode, .inl hu⟩
  · exact he.stash.imp_right fun hst => ⟨hst, he.mode, .inr hi⟩

/-- An instruction changes the counter only where it is a `syscall`, by one down. -/
theorem ExecStep.counter (hx : ExecStep i s t) :
    t.counter = s.counter ∨ (t.counter = s.counter - 1 ∧ ∃ num u1 u2, i = .syscall num u1 u2) := by
  rcases hx.control_cases with ⟨hct, _, _⟩ | ⟨_, _, hct, _⟩ | ⟨_, _, hct⟩ | ⟨hi, _, hct⟩
  · exact .inl hct
  · exact .inl hct
  · exact .inl hct
  · exact hct.imp_right fun hct => ⟨hct, hi⟩

/-! ### Over a whole step -/

/-- What the timer's delivery leaves in a step it takes, complete or not. -/
theorem timer_frame {e : Effect} (h : deliverTrap reference .timer (s.setCounter (s.counter + 1)) = e) :
    TrapFrame reference (s.setCounter (s.counter + 1)) e.state := h ▸ deliverTrap_frame _ _ _

theorem StepCase.trapCfg (hc : StepCase s t) :
    t.trapCfg = s.trapCfg ∨ (s.mode = .kernel ∧ ∃ u0 u1 u2, s.fetches (.configureTraps u0 u1 u2)) := by
  cases hc with
  | timer r _ _ hd ht | timerError r _ _ hd ht => exact .inl (ht ▸ (timer_frame hd).trapCfg)
  | fetchError s1 e h1 ht _ =>
    obtain ⟨c, rfl, _⟩ := hookPasses_eq_setCounter h1
    exact .inl (ht ▸ rfl)
  | instruction s1 i h1 hf hx =>
    obtain ⟨c, rfl, _⟩ := hookPasses_eq_setCounter h1
    refine (exec_cases hx).trapCfg.imp_right ?_
    rintro ⟨hk, u0, u1, u2, rfl⟩
    exact ⟨hk, u0, u1, u2, hf⟩

theorem StepCase.stash (hc : StepCase s t) :
    t.stash = s.stash ∨
    (t.stash = s.reg 0 ∧ t.mode = .kernel ∧ (s.mode = .user ∨ ∃ num u1 u2, s.fetches (.syscall num u1 u2))) := by
  cases hc with
  | timer r hu _ hd ht | timerError r hu _ hd ht =>
    have f := timer_frame hd
    exact ht ▸ f.stash.imp_right fun hst => ⟨hst, f.mode, .inl hu⟩
  | fetchError s1 e h1 ht _ =>
    obtain ⟨c, rfl, _⟩ := hookPasses_eq_setCounter h1
    exact .inl (ht ▸ rfl)
  | instruction s1 i h1 hf hx =>
    obtain ⟨c, rfl, _⟩ := hookPasses_eq_setCounter h1
    refine (exec_cases hx).stash.imp_right ?_
    rintro ⟨hst, hm, hcause⟩
    refine ⟨by simpa using hst, hm, hcause.imp_right ?_⟩
    rintro ⟨num, u1, u2, rfl⟩
    exact ⟨num, u1, u2, hf⟩

/-- Settles O47: the trap configuration and the stash, each followed through the ways a step can end. -/
theorem controlStateWriters : Obligations.ControlStateWriters := by
  unfold Obligations.ControlStateWriters
  intro s t h
  have hc := (step_cases h).2
  exact ⟨hc.trapCfg.resolve_left, hc.stash.resolve_left⟩

/-- The counter after a step, against `c`, what it is once the hook has counted: the timer reset it at 129, or it is `c`, or
a fetched `syscall` took one off. -/
theorem StepCase.counter (hc : StepCase s t) :
    (s.mode = .user ∧ s.counter + 1 = 129 ∧ t.counter = 0) ∨
    ∃ c, ((s.mode = .kernel ∧ c = s.counter) ∨ (s.mode = .user ∧ c = s.counter + 1)) ∧
      (t.counter = c ∨ (t.counter = c - 1 ∧ ∃ num u1 u2, s.fetches (.syscall num u1 u2))) := by
  cases hc with
  | timer r hu h129 _ ht => exact .inl ⟨hu, h129, ht ▸ rfl⟩
  | timerError r hu _ hd ht => exact .inr ⟨_, .inr ⟨hu, rfl⟩, .inl (ht ▸ (timer_frame hd).counter)⟩
  | fetchError s1 e h1 ht _ =>
    obtain ⟨c, rfl, hm⟩ := hookPasses_eq_setCounter h1
    exact .inr ⟨c, hm, .inl (ht ▸ rfl)⟩
  | instruction s1 i h1 hf hx =>
    obtain ⟨c, rfl, hm⟩ := hookPasses_eq_setCounter h1
    refine .inr ⟨c, hm, (exec_cases hx).counter.imp_right ?_⟩
    rintro ⟨hct, num, u1, u2, rfl⟩
    exact ⟨hct, num, u1, u2, hf⟩

/-- Settles O48: in USER mode a `syscall` takes off what the hook counted. -/
theorem counterRule : Obligations.CounterRule := by
  unfold Obligations.CounterRule
  intro s t h
  rcases (step_cases h).2.counter with ⟨hu, h129, h0⟩ | ⟨c, ⟨hk, rfl⟩ | ⟨hu, rfl⟩, hct⟩
  · exact ⟨by simp [hu], fun _ => .inr (.inl ⟨h0, h129⟩)⟩
  · exact ⟨fun _ => hct, by simp [hk]⟩
  · rw [BitVec.add_sub_cancel] at hct
    exact ⟨by simp [hu], fun _ => hct.imp_right .inr⟩

end Sys2Proof.Machine
end

section
/-! The register file (10_state.md R13) and the values after reset (10_state.md R26). -/

namespace Sys2Proof.Machine

/-- Settles O9: one file of eight registers, none hard-wired and none banked. -/
theorem registersReadBack : Obligations.RegistersReadBack := by
  unfold Obligations.RegistersReadBack
  exact fun s r v => ⟨s.setReg_reg_same r v, fun _ hq => s.setReg_reg_of_ne hq v, fun m => s.setMode_reg m r⟩

/-- Memory lists no cell after reset, so each reads as an unlisted one. -/
theorem State.reset_cell (a : Word) : State.reset.cell a = 0 := rfl

/-- Booting the reference configuration with no further input and an ended source is `State.reset` (70_reset_and_hazards.md
R150). -/
theorem boot_reference_eq_reset : boot reference [] true = .ok State.reset := rfl

/-- Settles O53: the registers, the cells and the launch by their own lemmas, the other fields as they are written. -/
theorem resetState : Obligations.ResetState := by
  unfold Obligations.ResetState
  exact ⟨State.reset_reg, State.reset_cell, rfl, rfl, rfl, rfl, rfl, rfl, rfl, rfl, rfl, boot_reference_eq_reset⟩

end Sys2Proof.Machine
end

section
/-! What a USER-mode step can write (20_memory.md R38, 60_exceptions.md R141): cells of the user region, by a `store` behind
its gate, and the trap cells, by a delivery or a `syscall`. -/

namespace Sys2Proof.Machine

variable {p : Params} {i : Instr} {s t : State} {a : Word}

/-- Trap delivery writes no other cell than the trap cells. -/
theorem deliverTrap_cell (r : Reason) (ha : ¬ s.isTrapCell a) : (deliverTrap p r s).state.cell a = s.cell a :=
  (deliverTrap_frame p r s).cells a (fun h => ha (.inl h)) (fun h => ha (.inr (.inl h)))

/-- `syscall` writes no other cell than the trap cells, its number's among them. -/
theorem syscallEffect_cell (n : Word) (ha : ¬ s.isTrapCell a) : (syscallEffect p n s).state.cell a = s.cell a := by
  have hcell := deliverTrap_cell (p := p) .syscall ha
  have hcfg := (deliverTrap_frame p .syscall s).trapCfg
  unfold syscallEffect
  cases hd : deliverTrap p .syscall s with
  | err e s1 =>
    rw [hd] at hcell
    exact hcell
  | ok s1 =>
    simp only [hd, Effect.state] at hcell hcfg
    have hsys : a ≠ s1.trapCfg.sysnoCell := fun h => ha (.inr (.inr (hcfg ▸ h)))
    rcases memWrite_cases p s1.trapCfg.sysnoCell n s1 with ⟨_, hw⟩ | ⟨_, hw⟩
    · simp [hw, Effect.state, State.setCell_cell_of_ne s1 hsys, hcell]
    · simp [hw, Effect.state, hcell]

/-- The next state of a sequence of effects reads a cell as the state the effects leave: an error changes no cell. -/
theorem Effect.cell_of_result {e : Effect} (h : e.result = .next t) (a : Word) : t.cell a = e.state.cell a := by
  rcases Effect.result_next h with rfl | ⟨k, rfl⟩ <;> rfl

/-- A USER-mode instruction writes cells of the user region and trap cells only. -/
theorem ExecStep.cell_of_user (hx : ExecStep i s t) (hu : s.mode = .user) (hb : inBounds reference a = false)
    (ha : ¬ s.isTrapCell a) : t.cell a = s.cell a := by
  cases hx with
  | trap r _ _ _ ht => exact (Effect.cell_of_result ht a).trans (deliverTrap_cell r ha)
  | syscall _ _ _ n _ _ _ ht => exact (Effect.cell_of_result ht a).trans (syscallEffect_cell n ha)
  | setCell _ _ _ b v _ _ _ _ hgate =>
    refine s.setCell_cell_of_ne (fun hab => ?_) v
    rw [hab, hgate hu] at hb
    cases hb
  | nothing | error | setReg | read | write | halt | configureTraps | enterUserMode => rfl

/-- A USER-mode step writes cells of the user region and trap cells only. -/
theorem StepCase.cell_of_user (hc : StepCase s t) (hu : s.mode = .user) (hb : inBounds reference a = false)
    (ha : ¬ s.isTrapCell a) : t.cell a = s.cell a := by
  cases hc with
  | timer r _ _ hd ht | timerError r _ _ hd ht =>
    have hcell := deliverTrap_cell (p := reference) (s := s.setCounter (s.counter + 1)) .timer ha
    rw [hd] at hcell
    exact ht ▸ hcell
  | fetchError s1 e h1 ht _ => exact ht ▸ hookPasses_cell h1 a
  | instruction s1 i h1 _ hx =>
    obtain ⟨c, rfl, _⟩ := hookPasses_eq_setCounter h1
    exact (exec_cases hx).cell_of_user hu hb ha

/-- The cells outside the user region of the reference configuration (20_memory.md R38). -/
theorem reference_outOfBounds (h : a.toNat < 1024 ∨ 2048 ≤ a.toNat) : inBounds reference a = false := by
  refine Bool.eq_false_iff.mpr fun hb => ?_
  obtain ⟨hlow, hhigh⟩ : 1024 ≤ a.toNat ∧ a.toNat < 2048 := (inBounds_iff a).mp hb
  omega

/-- Settles O49: every way a USER-mode step can end writes cells of the user region and trap cells only. -/
theorem userStepKeepsKernelMemory : Obligations.UserStepKeepsKernelMemory := by
  unfold Obligations.UserStepKeepsKernelMemory
  exact fun s t hu h a hout ha => (step_cases h).2.cell_of_user hu (reference_outOfBounds hout) ha

end Sys2Proof.Machine
end

section
/-! Memory as a list of cells in canonical form (20_memory.md R30, R31, R40; log 27): its reads determine it. -/

namespace Sys2Proof.Machine

/-- The listed cells are those that read as something else than an unlisted address. -/
theorem Memory.mem_iff_get {m : Memory} {words : Nat} (h : m.wf words) (c : Cell) :
    c ∈ m ↔ m.get c.1 = c.2 ∧ c.2 ≠ Memory.unlisted := by
  induction m with
  | nil => simpa [Memory.get] using Eq.symm
  | cons d m ih =>
    obtain ⟨k, w⟩ := d
    obtain ⟨a, v⟩ := c
    obtain ⟨hrise, hlisted⟩ := h
    obtain ⟨hk, hm⟩ := List.pairwise_cons.mp hrise
    obtain ⟨hw, hlisted'⟩ := List.forall_mem_cons.mp hlisted
    by_cases hak : a = k
    · subst hak
      have hnot : (a, v) ∉ m := fun hmem => Nat.lt_irrefl a (hk _ hmem)
      simp only [List.mem_cons, Prod.mk.injEq, true_and, hnot, or_false, Memory.get, if_true]
      exact ⟨fun e => ⟨e.symm, e ▸ hw.2⟩, fun e => e.1.symm⟩
    · simpa [Memory.get, hak] using ih ⟨hm, hlisted'⟩

/-- Cells at strictly rising addresses are listed once each. -/
theorem Memory.nodup_of_wf {m : Memory} {words : Nat} (h : m.wf words) : m.Nodup :=
  h.1.imp fun hlt heq => Nat.ne_of_lt hlt (congrArg Prod.fst heq)

/-- A listed cell is listed in every canonical memory that reads alike. -/
theorem Memory.mem_of_get_eq {m n : Memory} {words : Nat} (hm : m.wf words) (hn : n.wf words)
    (h : ∀ a, a < words → m.get a = n.get a) {c : Cell} (hc : c ∈ m) : c ∈ n := by
  obtain ⟨hget, hne⟩ := (Memory.mem_iff_get hm c).mp hc
  exact (Memory.mem_iff_get hn c).mpr ⟨(h _ (hm.2 c hc).1).symm.trans hget, hne⟩

/-- Settles O10: each clause is a law of memory. -/
theorem memoryReadsBack : Obligations.MemoryReadsBack := by
  unfold Obligations.MemoryReadsBack
  exact fun p s a v h => ⟨s.setCell_cell_same h a v, fun _ hb => s.setCell_cell_of_ne hb v, inMemory_iff a,
    fun ha => s.wf_setCell h ha v⟩

/-- Settles O11: the two list the same cells, each once, by rising address. -/
theorem canonicalMemoryIsDeterminedByReads : Obligations.CanonicalMemoryIsDeterminedByReads := by
  unfold Obligations.CanonicalMemoryIsDeterminedByReads
  intro words m n hm hn h
  have hperm : m.Perm n := (List.perm_ext_iff_of_nodup (Memory.nodup_of_wf hm) (Memory.nodup_of_wf hn)).mpr fun c =>
    ⟨Memory.mem_of_get_eq hm hn h, Memory.mem_of_get_eq hn hm fun a ha => (h a ha).symm⟩
  exact hperm.eq_of_pairwise (fun c d _ _ hcd hdc => absurd hdc (Nat.lt_asymm hcd)) hm.1 hn.1

end Sys2Proof.Machine
end

section
/-! `load` and `store` past the address gate (42_memory_instructions.md R100 to R102), and the fetch of a stored word. -/

namespace Sys2Proof.Machine

variable {p : Params} {s : State} {m : Mnemonic} {i : Instr} {rd value addr u a0 a1 a2 : Arg} {base : Behaviour} {v a : Word}

theorem memWrite_of_inMemory (h : inMemory p a = true) : memWrite p a v s = .ok (s.setCell a v) := if_pos h

theorem memWrite_of_not_inMemory (h : inMemory p a = false) : memWrite p a v s = .err .dataBounds s :=
  if_neg (Bool.eq_false_iff.mp h)

theorem memRead_of_not_inMemory (h : inMemory p a = false) : memRead p a s = .error .dataBounds :=
  if_neg (Bool.eq_false_iff.mp h)

/-- The address gate passes in KERNEL mode, and in the user region (60_exceptions.md R130). -/
theorem run_address_pass (h : registry.guardsOf m = [.address]) (ha : resolve a1 s = .ok a)
    (hb : s.mode = .user → inBounds reference a = true) : run m a0 a1 a2 base s = base reference a0 a1 a2 s := by
  refine (run_address h ha).trans (if_neg ?_)
  rintro ⟨hu, hout⟩
  simp [hb hu] at hout

/-- `store` past its gate is one `MemWrite`. -/
theorem exec_store_eq_memWrite (hv : resolve value s = .ok v) (ha : effectiveAddress addr s = .ok a)
    (hb : s.mode = .user → inBounds reference a = true) :
    exec (.store value addr u) s = (memWrite reference a v s).result := by
  refine (run_address_pass guardsOf_store ha hb).trans ?_
  simp only [storeBase, hv, ha]

/-- `store` past its gate, its address in memory, writes the cell. -/
theorem exec_store_of_inMemory (hv : resolve value s = .ok v) (ha : effectiveAddress addr s = .ok a)
    (hb : s.mode = .user → inBounds reference a = true) (hin : inMemory reference a = true) :
    exec (.store value addr u) s = .next (s.setCell a v) := by
  rw [exec_store_eq_memWrite hv ha hb, memWrite_of_inMemory hin, Effect.result_ok]

/-- `store` past its gate, its address outside memory, raises `DataBoundsError`. -/
theorem exec_store_of_not_inMemory (hv : resolve value s = .ok v) (ha : effectiveAddress addr s = .ok a)
    (hb : s.mode = .user → inBounds reference a = true) (hin : inMemory reference a = false) :
    exec (.store value addr u) s = .next (s.raise .dataBounds) := by
  rw [exec_store_eq_memWrite hv ha hb, memWrite_of_not_inMemory hin, Effect.result_err]

/-- `load` past its gate, its address outside memory, raises `DataBoundsError`. -/
theorem exec_load_of_not_inMemory (ha : effectiveAddress addr s = .ok a)
    (hb : s.mode = .user → inBounds reference a = true) (hin : inMemory reference a = false) :
    exec (.load rd addr u) s = .next (s.raise .dataBounds) := by
  refine (run_address_pass guardsOf_load ha hb).trans ?_
  simp only [loadBase, ha, memRead_of_not_inMemory hin]

/-- Addresses from 2048 on name no cell of the reference memory (20_memory.md R31). -/
theorem reference_not_inMemory (h : 2048 ≤ a.toNat) : inMemory reference a = false :=
  Bool.eq_false_iff.mpr fun hin => Nat.not_lt.mpr h ((inMemory_iff a).mp hin)

/-- A running engine whose hook passes executes what it fetches, register 7 advanced (40_step_cycle.md R72). -/
theorem step_of_fetches {s1 : State} (hh : s.halted = false) (h1 : s.hookPasses reference s1) (hf : s.fetches i) :
    step s = exec i (s1.setReg ipReg (s.ip + 1)) := by
  obtain ⟨hin, hd⟩ := hf
  simp only [step, stepWith, beginStep_of_hookPasses decode hh h1, fetchStage, hookPasses_ip h1, hookPasses_cell h1, hin, hd,
    if_true, State.setIp_eq]

/-- Settles O23: the gate passes and the access fails. -/
theorem kernelAccessOutsideMemory : Obligations.KernelAccessOutsideMemory := by
  unfold Obligations.KernelAccessOutsideMemory
  intro s rd value addr u v ea hk hv ha hout
  have hgate : s.mode = .user → inBounds reference ea = true := by simp [hk]
  have hin := reference_not_inMemory hout
  exact ⟨exec_load_of_not_inMemory ha hgate hin, exec_store_of_not_inMemory hv ha hgate hin⟩

/-- Settles O45: after the store the engine is running in KERNEL mode with the word at its instruction pointer. -/
theorem storedWordIsFetched : Obligations.StoredWordIsFetched := by
  unfold Obligations.StoredWordIsFetched
  intro s t value addr u w a i hwf hh hk hv ha hlt hip hx hd
  have hin : inMemory reference a = true := (inMemory_iff a).mpr hlt
  have hstored : exec (.store value addr u) s = .next (s.setCell a w) :=
    exec_store_of_inMemory hv ha (by simp [hk]) hin
  obtain rfl := next_inj (hstored.symm.trans hx)
  have hf : (s.setCell a w).fetches i := by simp [State.fetches, hip, hin, s.setCell_cell_same hwf, hd]
  simpa [hip] using step_of_fetches (s := s.setCell a w) hh (.inl ⟨hk, rfl⟩) hf

end Sys2Proof.Machine
end

section
/-! The host's append of input (10_state.md R21, 20_memory.md R44; log 28). -/

namespace Sys2Proof.Machine

variable {s t : State} {bytes : List Byte}

/-- An open source takes an append, which goes to the tail of the queue. -/
theorem hostAppend_of_open (h : s.inEof = false) :
    hostAppend bytes s = some (s.setInQueue (s.inQueue ++ bytes)) := by
  simp [hostAppend, h]

/-- An append that is taken sets the queue and nothing else. -/
theorem hostAppend_some (h : hostAppend bytes s = some t) : t = s.setInQueue (s.inQueue ++ bytes) := by
  cases he : s.inEof with
  | true => simp [hostAppend, he] at h
  | false => exact Option.some_inj.mp (h.symm.trans (hostAppend_of_open he))

/-- Settles O56: both appends go to the tail, the second behind the first. -/
theorem hostAppendsKeepOrder : Obligations.HostAppendsKeepOrder := by
  unfold Obligations.HostAppendsKeepOrder
  refine ⟨fun s bs h => ⟨_, hostAppend_of_open h⟩, fun s t u bs cs ht hu => ?_⟩
  obtain rfl := hostAppend_some ht
  obtain rfl := hostAppend_some hu
  exact ⟨rfl, List.append_assoc .., fun _ _ => rfl, fun _ => rfl, rfl, ⟨rfl, rfl, rfl⟩, ⟨rfl, rfl⟩, rfl, rfl⟩

end Sys2Proof.Machine
end

section
/-! The encoding of instructions (30_encoding.md R45 to R59): argument bytes, decode of encode, encode of decode. -/

namespace Sys2Proof

/-! ### Argument bytes (30_encoding.md R47) -/

variable {b : Byte}

theorem Arg.ofByte_of_eq_reg {r : Reg} (h : b.toNat = r.val) : Arg.ofByte b = .reg r := by
  have hlt : b.toNat < 8 := h ▸ r.isLt
  rw [Arg.ofByte, dif_pos hlt]
  exact congrArg Arg.reg (Fin.ext h)

theorem Arg.ofByte_of_invalid (h8 : 8 ≤ b.toNat) (h128 : b.toNat < 128) : ∃ n, Arg.ofByte b = .invalid n :=
  ⟨_, by rw [Arg.ofByte, dif_neg (Nat.not_lt.mpr h8), dif_pos h128]⟩

theorem Arg.ofByte_of_imm (h : 128 ≤ b.toNat) : Arg.ofByte b = .imm (BitVec.ofNat 7 (b.toNat - 128)) := by
  have h8 : ¬ b.toNat < 8 := by omega
  rw [Arg.ofByte, dif_neg h8, dif_neg (Nat.not_lt.mpr h)]

/-! ### Decoding over any registry (40_step_cycle.md R64) -/

section
variable {G B : Type} {r : Registry G B} {w : Word} {row : Definition G B}

theorem decodeIn_of_unknown (h : r[w.opcodeField.toNat]? = none) : decodeIn r w = .error .unknownOpcode := by
  simp [decodeIn, h]

theorem decodeIn_of_accepts (h : r[w.opcodeField.toNat]? = some row)
    (ha : row.accepts (Arg.ofByte w.arg0Field) (Arg.ofByte w.arg1Field) (Arg.ofByte w.arg2Field) = true) :
    decodeIn r w = .ok ⟨row, Arg.ofByte w.arg0Field, Arg.ofByte w.arg1Field, Arg.ofByte w.arg2Field⟩ := by
  simp [decodeIn, h, ha]

theorem decodeIn_of_rejects (h : r[w.opcodeField.toNat]? = some row)
    (ha : row.accepts (Arg.ofByte w.arg0Field) (Arg.ofByte w.arg1Field) (Arg.ofByte w.arg2Field) = false) :
    decodeIn r w = .error .badArguments := by
  simp [decodeIn, h, ha]

/-- What decoding answers is the row at the opcode with the three bytes read as arguments. -/
theorem decodeIn_ok {d : Decoded G B} (h : decodeIn r w = .ok d) :
    r[w.opcodeField.toNat]? = some d.definition ∧
      d = ⟨d.definition, Arg.ofByte w.arg0Field, Arg.ofByte w.arg1Field, Arg.ofByte w.arg2Field⟩ := by
  cases hr : r[w.opcodeField.toNat]? with
  | none => cases (decodeIn_of_unknown hr).symm.trans h
  | some row =>
    cases ha : row.accepts (Arg.ofByte w.arg0Field) (Arg.ofByte w.arg1Field) (Arg.ofByte w.arg2Field) with
    | false => cases (decodeIn_of_rejects hr ha).symm.trans h
    | true =>
      cases (decodeIn_of_accepts hr ha).symm.trans h
      exact ⟨rfl, rfl⟩

/-- Decoding looks at a registry only at the opcode. -/
theorem decodeIn_congr {r' : Registry G B} (h : r[w.opcodeField.toNat]? = r'[w.opcodeField.toNat]?) :
    decodeIn r w = decodeIn r' w := by
  simp only [decodeIn, h]

end

/-! ### The word of an instruction (30_encoding.md R45, R58) -/

theorem packWord_fields (w : Word) : packWord w.opcodeField w.arg0Field w.arg1Field w.arg2Field = w := by
  simp only [packWord, Word.opcodeField, Word.arg0Field, Word.arg1Field, Word.arg2Field]
  rw [BitVec.extractLsb'_append_extractLsb'_eq_extractLsb' (by rfl),
    BitVec.extractLsb'_append_extractLsb'_eq_extractLsb' (by rfl),
    BitVec.extractLsb'_append_extractLsb'_eq_extractLsb' (by rfl)]
  exact BitVec.extractLsb'_eq_self

@[simp] theorem Mnemonic.build_mnemonic (m : Mnemonic) (a0 a1 a2 : Arg) : (m.build a0 a1 a2).mnemonic = m := by
  cases m <;> rfl

@[simp] theorem Mnemonic.build_args (m : Mnemonic) (a0 a1 a2 : Arg) : (m.build a0 a1 a2).args = (a0, a1, a2) := by
  cases m <;> rfl

/-- Every row of the reference registry stands at its own opcode: no two rows share a base behaviour (R52). -/
theorem registry_opcodeOf_getElem : ∀ k, (h : k < registry.length) → registry.opcodeOf registry[k].base = k := by
  decide

theorem opcodeOf_of_getElem? {k : Nat} {row : Definition GuardName Mnemonic} (h : registry[k]? = some row) :
    registry.opcodeOf row.base = k := by
  obtain ⟨hk, rfl⟩ := List.getElem?_eq_some_iff.mp h
  exact registry_opcodeOf_getElem k hk

/-- The registry holds a row for every instruction. -/
theorem registryRow (i : Instr) : Laws.RegistryRow.Statement i := by
  cases i with
  | halt => exact Laws.RegistryRow.halt ..
  | unreachable => exact Laws.RegistryRow.unreachable ..
  | read => exact Laws.RegistryRow.read ..
  | write => exact Laws.RegistryRow.write ..
  | move => exact Laws.RegistryRow.move ..
  | loadLiteral => exact Laws.RegistryRow.loadLiteral ..
  | cmove => exact Laws.RegistryRow.cmove ..
  | add => exact Laws.RegistryRow.add ..
  | sub => exact Laws.RegistryRow.sub ..
  | mul => exact Laws.RegistryRow.mul ..
  | div => exact Laws.RegistryRow.div ..
  | and => exact Laws.RegistryRow.and ..
  | or => exact Laws.RegistryRow.or ..
  | xor => exact Laws.RegistryRow.xor ..
  | not => exact Laws.RegistryRow.not ..
  | shl => exact Laws.RegistryRow.shl ..
  | shr => exact Laws.RegistryRow.shr ..
  | load => exact Laws.RegistryRow.load ..
  | store => exact Laws.RegistryRow.store ..
  | configureTraps => exact Laws.RegistryRow.configureTraps ..
  | enterUserMode => exact Laws.RegistryRow.enterUserMode ..
  | syscall => exact Laws.RegistryRow.syscall ..

theorem encode_opcodeField (i : Instr) : (encode i).opcodeField.toNat = registry.opcodeOf i.mnemonic := by
  have h := registry_opcodeOf_lt i.mnemonic
  rw [encode, packWord_opcodeField, BitVec.toNat_ofNat, Nat.mod_eq_of_lt (by omega)]

@[simp] theorem ofByte_encode_arg0Field (i : Instr) : Arg.ofByte (encode i).arg0Field = i.args.1 := by
  simp [encode, Arg.ofByte_toByte]

@[simp] theorem ofByte_encode_arg1Field (i : Instr) : Arg.ofByte (encode i).arg1Field = i.args.2.1 := by
  simp [encode, Arg.ofByte_toByte]

@[simp] theorem ofByte_encode_arg2Field (i : Instr) : Arg.ofByte (encode i).arg2Field = i.args.2.2 := by
  simp [encode, Arg.ofByte_toByte]

theorem decode_encode {i : Instr} (hw : i.wellFormed = true) : decode (encode i) = .ok i := by
  obtain ⟨row, hrow, -, haccepts, hbuild⟩ := registryRow i
  rw [← encode_opcodeField] at hrow
  have hdec := decodeIn_of_accepts hrow (by simpa using haccepts.trans hw)
  simp [decode, hdec, Except.map, Decoded.instr, hbuild]

/-- What the reference decoder answers is built from the row at the opcode and the three bytes. -/
theorem decode_ok {w : Word} {i : Instr} (h : decode w = .ok i) :
    ∃ row, registry[w.opcodeField.toNat]? = some row ∧
      i = row.base.build (Arg.ofByte w.arg0Field) (Arg.ofByte w.arg1Field) (Arg.ofByte w.arg2Field) := by
  rw [decode] at h
  cases hd : decodeIn registry w with
  | error e => rw [hd] at h; cases h
  | ok d =>
    rw [hd] at h
    cases h
    obtain ⟨hrow, heq⟩ := decodeIn_ok hd
    exact ⟨d.definition, hrow, congrArg Decoded.instr heq⟩

theorem encode_of_decode {w : Word} {i : Instr} (h : decode w = .ok i) : encode i = w := by
  obtain ⟨row, hrow, rfl⟩ := decode_ok h
  simp only [encode, Mnemonic.build_mnemonic, Mnemonic.build_args, opcodeOf_of_getElem? hrow, Arg.toByte_ofByte,
    BitVec.ofNat_toNat, BitVec.setWidth_eq, packWord_fields]

/-- Settles O2: the registry's row of an instruction accepts and rebuilds it, and every row stands at its own opcode. -/
theorem decodeAndEncodeAgree : Obligations.DecodeAndEncodeAgree := by
  unfold Obligations.DecodeAndEncodeAgree
  exact ⟨fun _ => decode_encode, fun _ _ => encode_of_decode⟩

end Sys2Proof

namespace Sys2Proof.Machine

/-- An immediate's value is neither sign-extended nor scaled (30_encoding.md R47). -/
theorem immWord_ofNat {n : Nat} (h : n < 128) : immWord (BitVec.ofNat 7 n) = BitVec.ofNat 32 n := by
  apply BitVec.eq_of_toNat_eq
  rw [immWord, BitVec.toNat_setWidth, BitVec.toNat_ofNat, BitVec.toNat_ofNat]
  omega

/-- Settles O7: the three ranges of the byte. -/
theorem argumentByteMeaning : Obligations.ArgumentByteMeaning := by
  unfold Obligations.ArgumentByteMeaning
  intro b
  refine ⟨fun r => Arg.ofByte_of_eq_reg, Arg.ofByte_of_invalid, fun h => ⟨_, Arg.ofByte_of_imm h, ?_⟩⟩
  have hb := b.isLt
  rw [immWord_ofNat (by omega), BitVec.toNat_ofNat, Nat.mod_eq_of_lt (by omega)]

/-- Settles O8: `resolve` of each of the three forms the byte is read as. -/
theorem resolveOfAByte : Obligations.ResolveOfAByte := by
  unfold Obligations.ResolveOfAByte
  intro b s
  refine ⟨fun r h => ?_, fun h8 h128 => ?_, fun h => ?_⟩
  · rw [Arg.ofByte_of_eq_reg h, resolve_reg]
  · obtain ⟨n, hn⟩ := Arg.ofByte_of_invalid h8 h128
    rw [hn, resolve_invalid]
  · have hb := b.isLt
    rw [Arg.ofByte_of_imm h, resolve_imm, immWord_ofNat (by omega)]

end Sys2Proof.Machine
end

section
/-! A registry that grows by one definition (30_encoding.md R55, 40_step_cycle.md R60). -/

namespace Sys2Proof.Machine

section
variable {G B : Type} (r : Registry G B) (d : Definition G B)

/-- The new definition's opcode is the old length. -/
theorem register_getElem?_length : (r.register d).1[r.length]? = some d := List.getElem?_concat_length

/-- An append moves no definition and adds none at another opcode. -/
theorem register_getElem?_of_ne {k : Nat} (h : k ≠ r.length) : (r.register d).1[k]? = r[k]? := by
  rcases Nat.lt_or_gt_of_ne h with hlt | hgt
  · exact List.getElem?_append_left hlt
  · have hlen : (r.register d).1.length = r.length + 1 := List.length_append
    have hnew : (r.register d).1.length ≤ k := Nat.le_trans (Nat.le_of_eq hlen) hgt
    rw [List.getElem?_eq_none hnew, List.getElem?_eq_none (Nat.le_of_lt hgt)]

end

variable {c : Configuration} {s s1 : State}

/-- A running engine whose hook passes halts where the fetched word does not decode (40_step_cycle.md R71). -/
theorem stepIn_of_decode_error {e : DecodeError} (hh : s.halted = false) (h1 : s.hookPasses c.toParams s1)
    (hin : s.ip.toNat < c.memWords) (hd : decodeIn c.registry (s.cell s.ip) = .error e) :
    stepIn c s = .next (s1.raise (.decode e)) := by
  have hin := (inMemory_iff s.ip).mpr hin
  simp [stepIn, stepWith, beginStep_of_hookPasses _ hh h1, fetchStage, hookPasses_ip h1, hookPasses_cell h1, hin, hd]

/-- A running engine whose hook passes runs what it decodes, register 7 advanced (40_step_cycle.md R72, R73). -/
theorem stepIn_of_decode_ok {d : Decoded InterceptionGuard Behaviour} (hh : s.halted = false)
    (h1 : s.hookPasses c.toParams s1) (hin : s.ip.toNat < c.memWords)
    (hd : decodeIn c.registry (s.cell s.ip) = .ok d) :
    stepIn c s = runDecoded c.toParams d (s1.setReg ipReg (s.ip + 1)) := by
  have hin := (inMemory_iff s.ip).mpr hin
  simp [stepIn, stepWith, beginStep_of_hookPasses _ hh h1, fetchStage, hookPasses_ip h1, hookPasses_cell h1, hin, hd]

/-- Engines of the same parameters take the same step where their registries decode the fetched word alike. -/
theorem stepIn_congr {c' : Configuration} (hp : c'.toParams = c.toParams) (hh : s.halted = false)
    (h1 : s.hookPasses c.toParams s1) (hin : s.ip.toNat < c.memWords)
    (hdec : decodeIn c'.registry (s.cell s.ip) = decodeIn c.registry (s.cell s.ip)) : stepIn c' s = stepIn c s := by
  have h1' : s.hookPasses c'.toParams s1 := hp ▸ h1
  have hin' : s.ip.toNat < c'.memWords := hp ▸ hin
  cases hd : decodeIn c.registry (s.cell s.ip) with
  | error e => rw [stepIn_of_decode_error hh h1 hin hd, stepIn_of_decode_error hh h1' hin' (hdec.trans hd)]
  | ok d => rw [stepIn_of_decode_ok hh h1 hin hd, stepIn_of_decode_ok hh h1' hin' (hdec.trans hd), hp]

/-- Settles O59: at the next opcode the old registry has no row and the new one the definition; at any other opcode both
have the same row or none. -/
theorem registeredDefinitionRuns : Obligations.RegisteredDefinitionRuns := by
  unfold Obligations.RegisteredDefinitionRuns
  intro c d s s1 hh h1 hin
  refine ⟨fun hop => ?_,
    fun hop => stepIn_congr rfl hh h1 hin (decodeIn_congr (register_getElem?_of_ne c.registry d hop))⟩
  have hold : c.registry[(s.cell s.ip).opcodeField.toNat]? = none := by simp [hop]
  have hnew : (c.register d).registry[(s.cell s.ip).opcodeField.toNat]? = some d :=
    hop ▸ register_getElem?_length c.registry d
  have h1' : s.hookPasses (c.register d).toParams s1 := h1
  exact ⟨stepIn_of_decode_error hh h1 hin (decodeIn_of_unknown hold),
    fun ha => stepIn_of_decode_ok hh h1' hin (decodeIn_of_accepts hnew ha),
    fun ha => stepIn_of_decode_error hh h1' hin (decodeIn_of_rejects hnew ha)⟩

end Sys2Proof.Machine
end

section
/-! The stages of a step before execution (40_step_cycle.md R68 to R72), over any parameters, decoder and way to run what it
decodes. -/

namespace Sys2Proof

/-- Settles O3: the opcode's position in the registry, then the validator of the row that stands there. -/
theorem decodeFollowsTheRegistry : Obligations.DecodeFollowsTheRegistry := by
  unfold Obligations.DecodeFollowsTheRegistry
  exact fun G B r w => ⟨fun h => decodeIn_of_unknown (List.getElem?_eq_none h),
    fun d hd => ⟨decodeIn_of_accepts hd, decodeIn_of_rejects hd⟩⟩

end Sys2Proof

namespace Sys2Proof.Machine

variable {α : Type} {p : Params} {dec : Word → Except DecodeError α} {runIt : α → State → StepResult} {s s1 : State}

/-- A HALTED engine has no step (R68; D14, log 14). -/
theorem stepWith_of_halted (hh : s.halted = true) : stepWith p dec runIt s = .refused .engineHalted := by
  simp [stepWith, beginStep, hh]

/-- The bound on the instruction pointer (R70). -/
theorem stepWith_of_ip_outside (hh : s.halted = false) (h1 : s.hookPasses p s1) (hout : p.memWords ≤ s.ip.toNat) :
    stepWith p dec runIt s = .next (s1.raise .ipBounds) := by
  have hin : inMemory p s.ip = false := Bool.eq_false_iff.mpr fun hin => Nat.not_lt.mpr hout ((inMemory_iff _).mp hin)
  simp [stepWith, beginStep_of_hookPasses dec hh h1, fetchStage, hookPasses_ip h1, hin]

/-- A fetched word that does not decode (R71). -/
theorem stepWith_of_decode_error {e : DecodeError} (hh : s.halted = false) (h1 : s.hookPasses p s1)
    (hin : s.ip.toNat < p.memWords) (hd : dec (s.cell s.ip) = .error e) :
    stepWith p dec runIt s = .next (s1.raise (.decode e)) := by
  have hin : inMemory p s.ip = true := (inMemory_iff _).mpr hin
  simp [stepWith, beginStep_of_hookPasses dec hh h1, fetchStage, hookPasses_ip h1, hookPasses_cell h1, hin, hd]

/-- Settles O40: the reference step and the step of any configuration, each past its fetch. -/
theorem stepRunsTheDecodedInstruction : Obligations.StepRunsTheDecodedInstruction := by
  unfold Obligations.StepRunsTheDecodedInstruction
  exact ⟨fun s s1 i => step_of_fetches, fun c s s1 d => stepIn_of_decode_ok⟩

/-- Settles O41: both steps begin with the HALTED precondition. -/
theorem haltedEngineHasNoStep : Obligations.HaltedEngineHasNoStep := by
  unfold Obligations.HaltedEngineHasNoStep
  exact fun s hh => ⟨stepWith_of_halted hh, fun c => stepWith_of_halted hh⟩

/-- Settles O42: the two fetch errors, for the reference step and for any configuration. -/
theorem fetchErrorsHaltTheEngine : Obligations.FetchErrorsHaltTheEngine := by
  unfold Obligations.FetchErrorsHaltTheEngine
  refine ⟨fun s s1 hh h1 => ⟨stepWith_of_ip_outside hh h1, fun k hin hd => ?_⟩,
    fun c s s1 hh h1 => ⟨stepWith_of_ip_outside hh h1, fun k => stepWith_of_decode_error hh h1⟩⟩
  exact ⟨stepWith_of_decode_error hh h1 hin hd, (s1.raise_ip _).trans (hookPasses_ip h1)⟩

end Sys2Proof.Machine
end

section
/-! Guards: the chain they make (40_step_cycle.md R65 to R67), and attaching one to a definition (R61). -/

namespace Sys2Proof

section
variable {G B : Type} (r : Registry G B) (op : Nat) (g : G)

@[simp] theorem Registry.length_attach : (r.attach op g).length = r.length := List.length_modify ..

/-- The definition at the opcode gets the guard at the head of its chain. -/
theorem Registry.attach_getElem?_same {d : Definition G B} (h : r[op]? = some d) :
    (r.attach op g)[op]? = some { d with guards := g :: d.guards } := by
  simp [Registry.attach, List.getElem?_modify_eq, h]

theorem Registry.attach_getElem?_of_ne {k : Nat} (h : k ≠ op) : (r.attach op g)[k]? = r[k]? :=
  List.getElem?_modify_ne _ r h.symm

/-- Attaching at an opcode that no definition has (log 36). -/
theorem Registry.attach_of_length_le (h : r.length ≤ op) : r.attach op g = r := List.modify_eq_self h

end

variable {G B : Type} {r : Registry G B} {w : Word}

/-- A guard attached at a word's opcode is at the head of what that word decodes to, and changes nothing else of it. -/
theorem decodeIn_attach {d : Decoded G B} (g : G) (h : decodeIn r w = .ok d) :
    decodeIn (r.attach w.opcodeField.toNat g) w =
      .ok { d with definition := { d.definition with guards := g :: d.definition.guards } } := by
  cases hr : r[w.opcodeField.toNat]? with
  | none => cases (decodeIn_of_unknown hr).symm.trans h
  | some row =>
    cases ha : row.accepts (Arg.ofByte w.arg0Field) (Arg.ofByte w.arg1Field) (Arg.ofByte w.arg2Field) with
    | false => cases (decodeIn_of_rejects hr ha).symm.trans h
    | true =>
      cases (decodeIn_of_accepts hr ha).symm.trans h
      exact decodeIn_of_accepts (Registry.attach_getElem?_same r _ g hr) ha

end Sys2Proof

namespace Sys2Proof.Machine

variable {g : Guard} {gs : List Guard} {base : State → StepResult} {s : State}

theorem runChain_error {e : GuardFailure} (h : (g s).error = some e) :
    runChain (g :: gs) base s = .next ((g s).state.raise e.kind) := by
  simp [runChain, h]

theorem runChain_skip (he : (g s).error = none) (hs : (g s).skip = true) :
    runChain (g :: gs) base s = .next (g s).state := by
  simp [runChain, he, hs]

theorem runChain_continue (he : (g s).error = none) (hs : (g s).skip = false) :
    runChain (g :: gs) base s = runChain gs base (g s).state := by
  simp [runChain, he, hs]

/-- Settles O6: the three answers a guard can give, its error in each of its three forms. -/
theorem guardChainRunsInOrder : Obligations.GuardChainRunsInOrder := by
  unfold Obligations.GuardChainRunsInOrder
  exact fun g gs base s => ⟨runChain_nil base s, fun e => runChain_error, runChain_error, runChain_error, runChain_skip,
    runChain_continue⟩

/-- Settles O5: `register` appends, `attach` replaces one row, and the head of a chain runs before its rest. -/
theorem registerAppendsAndAttachLayers : Obligations.RegisterAppendsAndAttachLayers := by
  unfold Obligations.RegisterAppendsAndAttachLayers
  refine ⟨fun G B r d => ?_, fun G B r op g d hd => ?_, fun p d g a0 a1 a2 s => runChain_continue⟩
  · exact ⟨rfl, List.length_append, register_getElem?_length r d, fun k hk => register_getElem?_of_ne r d (Nat.ne_of_lt hk)⟩
  · exact ⟨Registry.length_attach r op g, Registry.attach_getElem?_same r op g hd,
      fun k => Registry.attach_getElem?_of_ne r op g⟩

/-- Where the fetched word has the opcode a guard was attached to, the step runs that guard in front of the chain of the
definition as it was. -/
theorem stepIn_attach_of_opcode {c : Configuration} {g : InterceptionGuard} {d : Decoded InterceptionGuard Behaviour}
    {s s1 : State} (hh : s.halted = false) (h1 : s.hookPasses c.toParams s1) (hin : s.ip.toNat < c.memWords)
    (hd : decodeIn c.registry (s.cell s.ip) = .ok d) :
    stepIn (c.attach (s.cell s.ip).opcodeField.toNat g) s =
      runChain (g c.toParams d.arg0 d.arg1 d.arg2 :: d.definition.guards.map fun g => g c.toParams d.arg0 d.arg1 d.arg2)
        (d.definition.base c.toParams d.arg0 d.arg1 d.arg2) (s1.setReg ipReg (s.ip + 1)) :=
  stepIn_of_decode_ok (c := c.attach (s.cell s.ip).opcodeField.toNat g) hh h1 hin (decodeIn_attach g hd)

/-- Settles O60: at the guard's opcode the step is the chain with the guard at its head; at every other the word decodes as
before. -/
theorem attachedGuardRunsFirst : Obligations.AttachedGuardRunsFirst := by
  unfold Obligations.AttachedGuardRunsFirst
  refine ⟨fun c op g => Registry.attach_of_length_le c.registry op g,
    fun c op g d s s1 answer hh h1 hin hd hanswer => ⟨?_, ?_⟩⟩
  · rintro rfl
    subst hanswer
    have hstep := stepIn_attach_of_opcode (g := g) hh h1 hin hd
    exact ⟨fun e he => hstep.trans (runChain_error he), fun he => hstep.trans (runChain_error he),
      fun he => hstep.trans (runChain_error he), fun he hs => hstep.trans (runChain_skip he hs),
      fun he hs => hstep.trans (runChain_continue he hs)⟩
  · exact fun hop => stepIn_congr rfl hh h1 hin (decodeIn_congr (Registry.attach_getElem?_of_ne c.registry op g hop))

end Sys2Proof.Machine
end

section
/-! How a step ends (40_step_cycle.md R74, R76): the halted flag and the report, and register 7 where no error is reported. -/

namespace Sys2Proof.Machine

variable {p : Params} {i : Instr} {s t : State}

/-! ### The halted flag and the report -/

/-- A running engine with the invariant has reported no error. -/
theorem State.report_of_running (h : s.inv p) (hh : s.halted = false) : s.report = none := by
  cases hr : s.report with
  | none => rfl
  | some e =>
    have hhalted := h.2 (by simp [hr])
    simp [hh] at hhalted

theorem TrapFrame.haltState (f : TrapFrame p s t) : sameHaltState s t := ⟨f.halted, f.report⟩

/-- Effects that leave the halted flag and the report alone end the step so, or in an error. -/
theorem Effect.haltState_of_result {e : Effect} (h : sameHaltState s e.state) (ht : e.result = .next t) :
    sameHaltState s t ∨ t.report ≠ none := by
  rcases Effect.result_next ht with rfl | ⟨k, rfl⟩
  · exact .inl h
  · exact .inr nofun

theorem syscallEffect_haltState (n : Word) : sameHaltState s (syscallEffect p n s).state := by
  have hd := (deliverTrap_frame p .syscall s).haltState
  rcases syscallEffect_state_cases p n s with hs | ⟨a, _, hs⟩ <;> rw [hs] <;> exact hd

/-- An instruction keeps the halted flag and the report, ends in an error, or is a KERNEL-mode `halt`. -/
theorem ExecStep.haltState_cases (hx : ExecStep i s t) :
    sameHaltState s t ∨ t.report ≠ none ∨ (s.mode = .kernel ∧ ∃ u0 u1 u2, i = .halt u0 u1 u2) := by
  cases hx with
  | error => exact .inr (.inl nofun)
  | trap r _ _ _ ht => exact (Effect.haltState_of_result (deliverTrap_frame _ r s).haltState ht).imp_right .inl
  | syscall _ _ _ n _ _ _ ht => exact (Effect.haltState_of_result (syscallEffect_haltState n) ht).imp_right .inl
  | halt u0 u1 u2 hk hi => exact .inr (.inr ⟨hk, u0, u1, u2, hi⟩)
  | nothing | setReg | setCell | read | write | configureTraps | enterUserMode => exact .inl ⟨rfl, rfl⟩

theorem StepCase.haltState_cases (hc : StepCase s t) :
    sameHaltState s t ∨ t.report ≠ none ∨ (s.mode = .kernel ∧ ∃ u0 u1 u2, s.fetches (.halt u0 u1 u2)) := by
  cases hc with
  | timer r _ _ hd ht =>
    have f := timer_frame hd
    exact .inl (ht ▸ f.haltState)
  | timerError r _ _ _ ht => exact .inr (.inl (ht ▸ nofun))
  | fetchError s1 e _ ht _ => exact .inr (.inl (ht ▸ nofun))
  | instruction s1 i h1 hf hx =>
    obtain ⟨c, rfl, _⟩ := hookPasses_eq_setCounter h1
    refine (exec_cases hx).haltState_cases.imp_right (.imp_right ?_)
    rintro ⟨hk, u0, u1, u2, rfl⟩
    exact ⟨hk, u0, u1, u2, hf⟩

/-- `halt` past its gate (43_device_and_halt.md R108). -/
theorem exec_halt_of_kernel {u0 u1 u2 : Arg} (hk : s.mode = .kernel) : exec (.halt u0 u1 u2) s = .next s.halt := by
  refine (run_privileged guardsOf_halt).trans ?_
  simp only [hk, haltBase]

/-- Settles O43: no other end of a step sets the flag without an error, and the invariant leaves the running engine no earlier
report. -/
theorem doneHaltedExactlyByHalt : Obligations.DoneHaltedExactlyByHalt := by
  unfold Obligations.DoneHaltedExactlyByHalt
  intro s t hinv hstep
  obtain ⟨hh, hc⟩ := step_cases hstep
  constructor
  · rintro ⟨hhalted, hreport⟩
    rcases hc.haltState_cases with ⟨hsame, _⟩ | hr | hhalt
    · simp [hh, hhalted] at hsame
    · exact absurd hreport hr
    · exact hhalt
  · rintro ⟨hk, u0, u1, u2, hf⟩
    have hexec := (step_of_fetches hh (.inl ⟨hk, rfl⟩) hf).trans (exec_halt_of_kernel hk)
    obtain rfl := next_inj (hexec.symm.trans hstep)
    have hreport : s.report = none := State.report_of_running hinv hh
    exact ⟨rfl, hreport⟩

/-! ### Register 7 -/

/-- Effects that end the step without an error were all made. -/
theorem Effect.eq_ok_of_result {e : Effect} (h : e.result = .next t) (hr : t.report = none) : e = .ok t := by
  cases e with
  | ok s => exact congrArg Effect.ok (next_inj h).symm
  | err k s =>
    obtain rfl := next_inj h
    cases hr

/-- A complete trap delivery goes to the handler (60_exceptions.md R123). -/
theorem deliverTrap_ok_ip {r : Reason} (h : deliverTrap p r s = .ok t) : t.ip = s.trapCfg.handler := by
  rcases deliverTrap_cases p r s with ⟨_, _, hd⟩ | ⟨_, hd⟩ | ⟨_, _, hd⟩ <;> cases hd.symm.trans h
  simp [trapped]

/-- A complete `syscall` goes to the handler (44_kernel_instructions.md R115). -/
theorem syscallEffect_ok_ip {n : Word} (h : syscallEffect p n s = .ok t) : t.ip = s.trapCfg.handler := by
  unfold syscallEffect at h
  cases hd : deliverTrap p .syscall s with
  | err e s1 => simp [hd] at h
  | ok s1 =>
    rw [hd, Effect.andThen_ok] at h
    have hip : s1.ip = s.trapCfg.handler := deliverTrap_ok_ip hd
    rcases memWrite_cases p s1.trapCfg.sysnoCell n s1 with ⟨_, hw⟩ | ⟨_, hw⟩ <;> rw [hw] at h <;> cases h
    exact hip

theorem isSyscall_eq (i : Instr) : i.isSyscall = (i.mnemonic == .syscall) := by
  cases i <;> rfl

/-- An instruction with a destination register is no `syscall`, and writes register 7 exactly where that is its destination. -/
theorem writesIp_of_destination (hi : i.isData = true ∨ i.mnemonic = .load ∨ i.mnemonic = .read) :
    i.isSyscall = false ∧ i.writesIp = (i.args.1 == .reg ipReg) := by
  cases i with
  | read | move | loadLiteral | cmove | add | sub | mul | div | and | or | xor | not | shl | shr | load => exact ⟨rfl, rfl⟩
  | halt | unreachable | write | store | configureTraps | enterUserMode | syscall =>
    simp [Instr.isData, Instr.mnemonic] at hi

/-- Executing `i` from `s` took no trap on the way to `t`. -/
structure InSequence (i : Instr) (s t : State) : Prop where
  notSyscall : i.isSyscall = false
  staysUser : s.mode = .user → t.mode = .user
  ip : i.writesIp = false → t.ip = s.ip

/-- Writing the destination register is in sequence. -/
theorem InSequence.setReg {q : Reg} (hi : i.isData = true ∨ i.mnemonic = .load ∨ i.mnemonic = .read)
    (hq : i.args.1 = .reg q) (v : Word) : InSequence i s (s.setReg q v) := by
  obtain ⟨hns, hw⟩ := writesIp_of_destination hi
  refine ⟨hns, id, fun h => ?_⟩
  have hne : ipReg ≠ q := by
    rintro rfl
    simp [hw, hq] at h
  exact s.setReg_reg_of_ne hne v

/-- An instruction that ends in no error goes to the handler by a trap, or is in sequence. -/
theorem ExecStep.ip_cases (hx : ExecStep i s t) (hr : t.report = none) :
    (t.ip = s.trapCfg.handler ∧ t.mode = .kernel ∧ (s.mode = .user ∨ i.isSyscall = true)) ∨ InSequence i s t := by
  cases hx with
  | error => cases hr
  | trap r _ _ hu ht =>
    have hip := deliverTrap_ok_ip (Effect.eq_ok_of_result ht hr)
    exact .inl ⟨hip, (deliverTrap_next_control ht).1.mode, .inl hu⟩
  | syscall _ _ _ n _ hi _ ht =>
    have hip := syscallEffect_ok_ip (Effect.eq_ok_of_result ht hr)
    exact .inl ⟨hip, (syscallEffect_next_control ht).1.mode, .inr (hi ▸ rfl)⟩
  | nothing hi => exact .inr ⟨(writesIp_of_destination (.inl hi)).1, id, fun _ => rfl⟩
  | setReg q v hq hi => exact .inr (.setReg (hi.imp_right .inl) hq v)
  | read q b bs _ hi hq _ =>
    have hseq : InSequence i s (s.setReg q (zextByte b)) := .setReg (.inr (.inr hi)) hq _
    exact .inr ⟨hseq.notSyscall, hseq.staysUser, hseq.ip⟩
  | write b _ hi => exact .inr ⟨by rw [isSyscall_eq, hi]; rfl, id, fun _ => rfl⟩
  | setCell _ _ _ _ _ hi => exact .inr ⟨hi ▸ rfl, id, fun _ => rfl⟩
  | halt _ _ _ _ hi | configureTraps _ _ _ _ hi => exact .inr ⟨hi ▸ rfl, id, fun _ => rfl⟩
  | enterUserMode _ _ _ _ hi => exact .inr ⟨hi ▸ rfl, fun _ => rfl, fun hw => by simp [hi, Instr.writesIp] at hw⟩

/-- A step that ends in no error goes to the handler by a trap, or executes what it fetched in sequence, from register 7
advanced. -/
theorem StepCase.ip_cases (hc : StepCase s t) (hr : t.report = none) :
    (t.ip = s.trapCfg.handler ∧ t.mode = .kernel ∧ (s.mode = .user ∨ ∃ i, s.fetches i ∧ i.isSyscall = true)) ∨
    ∃ i, s.fetches i ∧ InSequence i (s.setReg ipReg (s.ip + 1)) t := by
  cases hc with
  | timer r hu _ hd ht =>
    have hip : r.ip = (s.setCounter (s.counter + 1)).trapCfg.handler := deliverTrap_ok_ip hd
    exact .inl (ht ▸ ⟨hip, (timer_frame hd).mode, .inl hu⟩)
  | timerError r _ _ _ ht => rw [ht] at hr; cases hr
  | fetchError s1 e _ ht _ => rw [ht] at hr; cases hr
  | instruction s1 i h1 hf hx =>
    obtain ⟨c, rfl, _⟩ := hookPasses_eq_setCounter h1
    rcases (exec_cases hx).ip_cases hr with ⟨hip, hm, hcause⟩ | hseq
    · exact .inl ⟨hip, hm, hcause.imp_right fun hsys => ⟨i, hf, hsys⟩⟩
    · exact .inr ⟨i, hf, hseq.notSyscall, hseq.staysUser, hseq.ip⟩

/-- A state fetches at most one instruction. -/
theorem State.fetches_unique {j : Instr} (hi : s.fetches i) (hj : s.fetches j) : i = j :=
  Except.ok.inj (hi.2.symm.trans hj.2)

/-- Settles O44: a step in sequence keeps USER mode, and a trap from KERNEL mode is a `syscall`'s. -/
theorem instructionPointerAfterAStep : Obligations.InstructionPointerAfterAStep := by
  unfold Obligations.InstructionPointerAfterAStep
  intro s t _ hstep hr
  rcases (step_cases hstep).2.ip_cases hr with ⟨hip, hk, hcause⟩ | ⟨i, hf, hseq⟩
  · refine ⟨fun _ _ => hip, fun hm i hf => ⟨fun _ => hip, fun hns => ?_⟩⟩
    rcases hcause with hu | ⟨j, hj, hsys⟩
    · simp [hk, hu] at hm
    · obtain rfl := State.fetches_unique hf hj
      simp [hns] at hsys
  · refine ⟨fun hu hk => ?_, fun _ j hj => ?_⟩
    · have hstays := hseq.staysUser hu
      simp [hk] at hstays
    · obtain rfl := State.fetches_unique hf hj
      exact ⟨fun hsys => by simp [hseq.notSyscall] at hsys, fun _ hw => (hseq.ip hw).trans (s.setReg_ip_same _)⟩

end Sys2Proof.Machine
end

section
/-! The data instructions (41_data_instructions.md R80 to R93): one rule for the thirteen that write a value, one each for the
two that write none, the results as exact integers, and the frame. Two of the theorems stand under `Data`, since the model
has a `divResult` and a `cmoveResult` of its own. -/

namespace Sys2Proof.Machine

variable {p : Params} {m : Mnemonic} {i : Instr} {s t : State} {rd : Reg} {a0 a1 a2 a b u : Arg} {v x y n d : Word}

/-! ### Operands, results of one and of two sources -/

/-- An immediate is zero-extended (30_encoding.md R47). -/
theorem immWord_eq_ofNat (lit : BitVec 7) : immWord lit = BitVec.ofNat 32 lit.toNat := (BitVec.ofNat_toNat 32 lit).symm

theorem unary_of_resolve {f : Word → Option Word} (ha : resolve a s = .ok x) : unary f a s = .ok (f x) := by
  simp only [unary, ha]

theorem binary_of_resolve {f : Word → Word → Option Word} (ha : resolve a s = .ok x) (hb : resolve b s = .ok y) :
    binary f a b s = .ok (f x y) := by
  simp only [binary, ha, unary_of_resolve hb]

/-! ### Behind the ip-write gate -/

theorem not_ipWriteTraps_of_allowed (h : ipWriteAllowed s rd v) : ¬ ipWriteTraps (.reg rd) (some v) s := by
  rintro ⟨hu, hrd, w, hw, hout⟩
  cases hw
  simp [h hu (Arg.reg.inj hrd)] at hout

/-- There is nothing to trap where nothing is written (60_exceptions.md R131, R132; D12, D5). -/
theorem not_ipWriteTraps_none : ¬ ipWriteTraps a0 none s := by
  rintro ⟨_, _, _, hw, _⟩
  cases hw

/-- The base behaviour of a data instruction writes the value of its result. -/
theorem behaviourOf_of_dataResult (h : registry.guardsOf m = [.ipWrite]) (hv : dataResult m a1 a2 s = .ok (some v)) :
    behaviourOf m p a0 a1 a2 s = (writeDest a0 v s).result := by
  cases m with
  | move | loadLiteral | cmove | add | sub | mul | and | or | xor | not | shl | shr =>
    exact congrArg (fun r => (commit a0 r s).result) hv
  | div =>
    have hdiv : divResult a1 a2 s = .ok (some v) := hv
    simp only [behaviourOf, divBase, hdiv, commit]
  | halt | unreachable | read | write | load | store | configureTraps | enterUserMode | syscall => simp at h

/-- A data instruction writes the value of its result, where the gate lets it through, and nothing else (R80). -/
theorem exec_of_dataResult (h : registry.guardsOf m = [.ipWrite]) (hv : dataResult m a1 a2 s = .ok (some v))
    (hg : ipWriteAllowed s rd v) : exec (m.build (.reg rd) a1 a2) s = .next (s.setReg rd v) := by
  rw [exec_build, run_ipWrite_pass h hv (not_ipWriteTraps_of_allowed hg), behaviourOf_of_dataResult h hv, writeDest_reg,
    Effect.result_ok]

/-- A `cmove` with nothing to write does nothing (R83; D12). -/
theorem exec_cmove_of_none (hv : cmoveResult a b s = .ok none) : exec (.cmove a0 a b) s = .next s := by
  refine (run_ipWrite_pass guardsOf_cmove hv not_ipWriteTraps_none).trans ?_
  simp only [cmoveBase, hv, commit, Effect.result_ok]

/-- A `div` with nothing to write raises its error (R87; D5). -/
theorem exec_div_of_none (hv : divResult a b s = .ok none) : exec (.div a0 a b) s = .next (s.raise .divideByZero) := by
  refine (run_ipWrite_pass guardsOf_div hv not_ipWriteTraps_none).trans ?_
  simp only [divBase, hv]

/-! ### The results as exact integers (D4) -/

theorem ofInt_sub_toNat (x y : Word) : BitVec.ofInt 32 ((x.toNat : Int) - (y.toNat : Int)) = x - y := by
  apply BitVec.eq_of_toNat_eq
  rw [BitVec.toNat_ofInt, BitVec.toNat_sub]
  omega

theorem ofNat_mul_toNat (x y : Word) : BitVec.ofNat 32 (x.toNat * y.toNat) = x * y := by
  rw [BitVec.ofNat_mul, BitVec.ofNat_toNat, BitVec.ofNat_toNat, BitVec.setWidth_eq, BitVec.setWidth_eq]

theorem shlWord_of_lt (h : n.toNat < 32) : shlWord x n = BitVec.ofNat 32 (x.toNat * 2 ^ n.toNat) := by
  refine (if_pos (BitVec.lt_def.mpr h)).trans (BitVec.eq_of_toNat_eq ?_)
  rw [BitVec.toNat_shiftLeft, BitVec.toNat_ofNat, Nat.shiftLeft_eq]

theorem shlWord_of_le (h : 32 ≤ n.toNat) : shlWord x n = 0 :=
  if_neg fun hlt => Nat.not_lt.mpr h (BitVec.lt_def.mp hlt)

theorem shrWord_of_lt (h : n.toNat < 32) : shrWord x n = BitVec.ofNat 32 (x.toNat / 2 ^ n.toNat) := by
  refine (if_pos (BitVec.lt_def.mpr h)).trans ?_
  rw [← Nat.shiftRight_eq_div_pow, ← BitVec.toNat_ushiftRight, BitVec.ofNat_toNat, BitVec.setWidth_eq]

theorem shrWord_of_le (h : 32 ≤ n.toNat) : shrWord x n = 0 :=
  if_neg fun hlt => Nat.not_lt.mpr h (BitVec.lt_def.mp hlt)

/-! ### The statements of the results -/

/-- Settles O14: each Word operation is the exact one narrowed. -/
theorem addSubMulResults : Obligations.AddSubMulResults := by
  unfold Obligations.AddSubMulResults
  intro s rd a b x y ha hb
  refine ⟨fun v hv hg => ?_, fun v hv hg => ?_, fun v hv hg => ?_⟩
  · obtain rfl : v = x + y := hv
    exact exec_of_dataResult guardsOf_add (binary_of_resolve ha hb) hg
  · obtain rfl : v = x - y := hv.trans (ofInt_sub_toNat x y)
    exact exec_of_dataResult guardsOf_sub (binary_of_resolve ha hb) hg
  · obtain rfl : v = x * y := hv.trans (ofNat_mul_toNat x y)
    exact exec_of_dataResult guardsOf_mul (binary_of_resolve ha hb) hg

/-- Settles O15: a zero divisor gives the gate nothing to stop. -/
theorem Data.divResult : Obligations.DivResult := by
  unfold Obligations.DivResult
  intro s rd a b n d ha hb
  have hr : Machine.divResult a b s = .ok (divWord n d) := binary_of_resolve ha hb
  refine ⟨fun v hd hv hg => ?_, fun hd => ?_⟩
  · obtain rfl : v = n / d := hv.trans BitVec.udiv_def.symm
    exact exec_of_dataResult guardsOf_div (hr.trans (congrArg Except.ok (if_neg hd))) hg
  · exact exec_div_of_none (hr.trans (congrArg Except.ok (if_pos hd)))

/-- Settles O16: a Word is its 32 bits. -/
theorem bitwiseResults : Obligations.BitwiseResults := by
  unfold Obligations.BitwiseResults
  intro s rd a b u x y v ha hb hg
  refine ⟨fun hv => ?_, fun hv => ?_, fun hv => ?_, fun hv => ?_⟩
  · obtain rfl : v = x &&& y := BitVec.eq_of_getLsbD_eq fun k hk => (hv k hk).trans BitVec.getLsbD_and.symm
    exact exec_of_dataResult guardsOf_and (binary_of_resolve ha hb) hg
  · obtain rfl : v = x ||| y := BitVec.eq_of_getLsbD_eq fun k hk => (hv k hk).trans BitVec.getLsbD_or.symm
    exact exec_of_dataResult guardsOf_or (binary_of_resolve ha hb) hg
  · obtain rfl : v = x ^^^ y := BitVec.eq_of_getLsbD_eq fun k hk => (hv k hk).trans BitVec.getLsbD_xor.symm
    exact exec_of_dataResult guardsOf_xor (binary_of_resolve ha hb) hg
  · obtain rfl : v = ~~~x := BitVec.eq_of_getLsbD_eq fun k hk => by rw [hv k hk, BitVec.getLsbD_not]; simp [hk]
    exact exec_of_dataResult (a2 := u) guardsOf_not (unary_of_resolve ha) hg

/-- Settles O17: amounts below 32 and from 32 on. -/
theorem shiftResults : Obligations.ShiftResults := by
  unfold Obligations.ShiftResults
  intro s rd a b x n ha hb
  refine ⟨fun v hlt hle hg => ?_, fun v hlt hle hg => ?_⟩
  · obtain rfl : v = shlWord x n := by
      rcases Nat.lt_or_ge n.toNat 32 with h | h
      · exact (hlt h).trans (shlWord_of_lt h).symm
      · exact (hle h).trans (shlWord_of_le h).symm
    exact exec_of_dataResult guardsOf_shl (binary_of_resolve ha hb) hg
  · obtain rfl : v = shrWord x n := by
      rcases Nat.lt_or_ge n.toNat 32 with h | h
      · exact (hlt h).trans (shrWord_of_lt h).symm
      · exact (hle h).trans (shrWord_of_le h).symm
    exact exec_of_dataResult guardsOf_shr (binary_of_resolve ha hb) hg

/-- Settles O12: both write the value of their one source. -/
theorem moveAndLoadLiteralResults : Obligations.MoveAndLoadLiteralResults := by
  unfold Obligations.MoveAndLoadLiteralResults
  refine fun s rd u => ⟨fun src v hsrc hg => ?_, fun lit hg => ?_⟩
  · exact exec_of_dataResult (a2 := u) guardsOf_move (unary_of_resolve hsrc) hg
  · have hlit : resolve (.imm lit) s = .ok (BitVec.ofNat 32 lit.toNat) := by rw [resolve_imm, immWord_eq_ofNat]
    exact exec_of_dataResult (a2 := u) guardsOf_loadLiteral (unary_of_resolve hlit) hg

/-- Settles O13: a zero condition leaves nothing to write, for the gate as for the instruction. -/
theorem Data.cmoveResult : Obligations.CmoveResult := by
  unfold Obligations.CmoveResult
  intro s rd src cond v c hsrc hcond
  have hr : Machine.cmoveResult src cond s = .ok (cmoveWord v c) := binary_of_resolve hsrc hcond
  refine ⟨fun hc hg => ?_, fun hc => ?_⟩
  · exact exec_of_dataResult guardsOf_cmove (hr.trans (congrArg Except.ok (if_neg hc))) hg
  · exact exec_cmove_of_none (hr.trans (congrArg Except.ok (if_pos hc)))

/-! ### The frame (R80) -/

theorem guardsOf_of_isData (hi : i.isData = true) : registry.guardsOf i.mnemonic = [.ipWrite] := by
  cases i with
  | move | loadLiteral | cmove | add | sub | mul | div | and | or | xor | not | shl | shr => rfl
  | halt | unreachable | read | write | load | store | configureTraps | enterUserMode | syscall => cases hi

/-- A well-formed data instruction that takes no trap does nothing, writes its destination, or is a `div` by zero. -/
theorem ExecStep.data_cases (hx : ExecStep i s t) (hi : i.isData = true) (hw : i.wellFormed = true)
    (hm : t.mode = s.mode) :
    t = s ∨ (∃ q v, i.args.1 = .reg q ∧ t = s.setReg q v) ∨ (i.mnemonic = .div ∧ t = s.raise .divideByZero) := by
  have hguard := guardsOf_of_isData hi
  cases hx with
  | nothing => exact .inl rfl
  | setReg q v hq _ => exact .inr (.inl ⟨q, v, hq, rfl⟩)
  | error e he hd _ _ =>
    rcases hd hi with rfl | ⟨hdiv, rfl⟩
    · simp [he rfl] at hw
    · exact .inr (.inr ⟨hdiv, rfl⟩)
  | trap r _ _ hu ht =>
    have hk := (deliverTrap_next_control ht).1.mode
    simp [hk, hu] at hm
  | read _ _ _ _ hr _ _ | write _ _ hr => simp [hr] at hguard
  | setCell _ _ _ _ _ hj | halt _ _ _ _ hj | configureTraps _ _ _ _ hj | enterUserMode _ _ _ _ hj | syscall _ _ _ _ _ hj =>
    subst hj
    cases hi

/-- Settles O19: a register write and a raised error each have a frame of their own. -/
theorem dataFrame : Obligations.DataFrame := by
  unfold Obligations.DataFrame
  intro i s t hi hw hx hm
  rcases (exec_cases hx).data_cases hi hw hm with rfl | ⟨q, v, hq, rfl⟩ | ⟨hdiv, rfl⟩
  · exact ⟨fun _ _ => rfl, fun _ => rfl, ⟨rfl, rfl, rfl⟩, ⟨rfl, rfl, rfl⟩, .inl ⟨rfl, rfl⟩⟩
  · refine ⟨fun r hr => ?_, fun _ => rfl, ⟨rfl, rfl, rfl⟩, ⟨rfl, rfl, rfl⟩, .inl ⟨rfl, rfl⟩⟩
    have hne : r ≠ q := by
      rintro rfl
      exact hr hq
    exact s.setReg_reg_of_ne hne v
  · exact ⟨fun _ _ => rfl, fun _ => rfl, ⟨rfl, rfl, rfl⟩, ⟨rfl, rfl, rfl⟩, .inr ⟨hdiv, rfl, rfl⟩⟩

end Sys2Proof.Machine
end

section
/-! The memory instructions (42_memory_instructions.md R100 to R102): their results for an address in memory that the gate lets
through, and their frame. -/

namespace Sys2Proof.Machine

variable {p : Params} {i : Instr} {s t : State} {rd addr u : Arg} {a : Word}

/-! ### The results -/

theorem memRead_of_inMemory (h : inMemory p a = true) : memRead p a s = .ok (s.cell a) := if_pos h

/-- `load` past its gate, its address in memory, writes the cell's word to its destination. -/
theorem exec_load_of_inMemory (ha : effectiveAddress addr s = .ok a) (hb : s.mode = .user → inBounds reference a = true)
    (hin : inMemory reference a = true) : exec (.load rd addr u) s = (writeDest rd (s.cell a) s).result := by
  refine (run_address_pass guardsOf_load ha hb).trans ?_
  simp only [loadBase, ha, memRead_of_inMemory hin]

/-- Settles O20: a register destination takes any value, register 7 included (D23). -/
theorem loadResult : Obligations.LoadResult := by
  unfold Obligations.LoadResult
  intro s rd addr u ea ha hlt hb
  rw [exec_load_of_inMemory ha hb ((inMemory_iff ea).mpr hlt), writeDest_reg, Effect.result_ok]

/-- Settles O21: the cell reads back since memory is canonical. -/
theorem storeResult : Obligations.StoreResult := by
  unfold Obligations.StoreResult
  intro s value addr u v ea hwf hv ha hlt hb
  exact ⟨s.setCell ea v, exec_store_of_inMemory hv ha hb ((inMemory_iff ea).mpr hlt), s.setCell_cell_same hwf ea v, rfl⟩

/-! ### The frame -/

/-- A well-formed `load` or `store` that takes no trap raises `DataBoundsError`, or does its one write: the destination
register of `load`, the addressed cell of `store`. -/
theorem ExecStep.memory_cases (hx : ExecStep i s t) (hi : i.mnemonic = .load ∨ i.mnemonic = .store)
    (hw : i.wellFormed = true) (hm : t.mode = s.mode) :
    t = s.raise .dataBounds ∨
    (i.mnemonic = .load ∧ ∃ q v, i.args.1 = .reg q ∧ t = s.setReg q v) ∨
    (i.mnemonic = .store ∧ ∃ ea v, effectiveAddress i.args.2.1 s = .ok ea ∧ t = s.setCell ea v) := by
  have hdata : ¬ i.isData = true := fun h => by
    obtain ⟨_, hload, hstore⟩ := isData_excludes h
    exact hi.elim hload hstore
  cases hx with
  | error e he _ hmem _ =>
    rcases hmem hi with rfl | rfl
    · simp [he rfl] at hw
    · exact .inl rfl
  | trap r _ _ hu ht =>
    have hk := (deliverTrap_next_control ht).1.mode
    simp [hk, hu] at hm
  | setReg q v hq hd => exact .inr (.inl ⟨hd.resolve_left hdata, q, v, hq, rfl⟩)
  | setCell value addr u ea v hj _ ha =>
    subst hj
    exact .inr (.inr ⟨rfl, ea, v, ha, rfl⟩)
  | nothing hd => exact absurd hd hdata
  | read _ _ _ _ hr | write _ _ hr => simp [hr] at hi
  | halt _ _ _ _ hj | configureTraps _ _ _ _ hj | enterUserMode _ _ _ _ hj | syscall _ _ _ _ _ hj =>
    simp [hj, Instr.mnemonic] at hi

/-- Settles O24: a raised error, a register write and a cell write each have a frame of their own. -/
theorem loadAndStoreFrame : Obligations.LoadAndStoreFrame := by
  unfold Obligations.LoadAndStoreFrame
  refine fun a0 addr u s t hm => ⟨fun hx hw => ?_, fun hx hw => ?_⟩
  · rcases (exec_cases hx).memory_cases (.inl rfl) hw hm with rfl | ⟨_, q, v, hq, rfl⟩ | ⟨hstore, _⟩
    · exact ⟨fun _ _ => rfl, fun _ => rfl, ⟨rfl, rfl, rfl⟩, ⟨rfl, rfl, rfl⟩, .inr ⟨rfl, rfl⟩⟩
    · refine ⟨fun r hr => ?_, fun _ => rfl, ⟨rfl, rfl, rfl⟩, ⟨rfl, rfl, rfl⟩, .inl ⟨rfl, rfl⟩⟩
      have hne : r ≠ q := fun h => hr (h ▸ hq)
      exact s.setReg_reg_of_ne hne v
    · cases hstore
  · rcases (exec_cases hx).memory_cases (.inr rfl) hw hm with rfl | ⟨hload, _⟩ | ⟨_, ea, v, ha, rfl⟩
    · exact ⟨fun _ _ => rfl, fun _ _ _ _ => rfl, ⟨rfl, rfl, rfl⟩, ⟨rfl, rfl, rfl⟩, .inr ⟨rfl, rfl, fun _ => rfl⟩⟩
    · cases hload
    · refine ⟨fun _ _ => rfl, fun ea' ha' b hb => ?_, ⟨rfl, rfl, rfl⟩, ⟨rfl, rfl, rfl⟩, .inl ⟨rfl, rfl⟩⟩
      obtain rfl : ea = ea' := Except.ok.inj (ha.symm.trans ha')
      exact s.setCell_cell_of_ne hb v

end Sys2Proof.Machine
end

section
/-! What the instructions behind the privileged gate do once past it (43_device_and_halt.md R106 to R109): their results, and
the frame of `read` and `write`. -/

namespace Sys2Proof.Machine

variable {p : Params} {m : Mnemonic} {s : State} {a0 a1 a2 src u0 u1 u2 : Arg} {rd : Reg} {b : Byte} {q : List Byte} {v : Word}

/-! ### Past the privileged gate (60_exceptions.md R129) -/

theorem exec_privileged_of_kernel (h : registry.guardsOf m = [.privileged]) (hk : s.mode = .kernel) :
    exec (m.build a0 a1 a2) s = behaviourOf m reference a0 a1 a2 s := by
  rw [exec_build, run_privileged h, hk]

theorem exec_privileged_of_user (h : registry.guardsOf m = [.privileged]) (hu : s.mode = .user) :
    exec (m.build a0 a1 a2) s = (deliverTrap reference .illegalInstruction s).result := by
  rw [exec_build, run_privileged h, hu]

/-- Trap delivery makes all its effects where both its cells lie in memory (60_exceptions.md R123, R138). -/
theorem deliverTrap_of_trapCellsInMemory (h : s.trapCellsInMemory p) (r : Reason) :
    deliverTrap p r s = .ok (trapped r s) := by
  obtain ⟨hret, hreason⟩ := h
  rcases deliverTrap_cases p r s with ⟨_, _, hd⟩ | ⟨hret', _⟩ | ⟨_, hreason', _⟩
  · exact hd
  · simp [hret] at hret'
  · simp [hreason] at hreason'

/-! ### The bytes moved (00_scope.md R7; D7) -/

theorem zextByte_eq_ofNat (b : Byte) : zextByte b = BitVec.ofNat 32 b.toNat := (BitVec.ofNat_toNat 32 b).symm

theorem lowByte_eq_ofNat (v : Word) : lowByte v = BitVec.ofNat 8 (v.toNat % 256) :=
  BitVec.eq_of_toNat_eq (by simp [lowByte])

/-! ### `read` -/

/-- A register write and the queue's update touch different fields. -/
theorem State.setReg_setInQueue : (s.setReg rd v).setInQueue q = (s.setInQueue q).setReg rd v := rfl

/-- `read` takes the head of the queue into its destination (R106). -/
theorem exec_read_of_cons (hk : s.mode = .kernel) (hq : s.inQueue = b :: q) :
    exec (.read (.reg rd) u1 u2) s = .next ((s.setInQueue q).setReg rd (BitVec.ofNat 32 b.toNat)) := by
  refine (exec_privileged_of_kernel guardsOf_read hk).trans ?_
  simp only [behaviourOf, readBase, hq, writeDest_reg, Effect.andThen_ok, Effect.result_ok, State.setReg_setInQueue,
    zextByte_eq_ofNat]

/-- `read` on an empty queue has no next state: `Abort` at the end of the stream, else `Hold` (R106; D15). -/
theorem exec_read_of_nil (hk : s.mode = .kernel) (hq : s.inQueue = []) :
    exec (.read a0 u1 u2) s = .fault (if s.inEof then .deviceAbort else .inputHold) := by
  refine (exec_privileged_of_kernel guardsOf_read hk).trans ?_
  simp only [behaviourOf, readBase, hq]
  split <;> rfl

/-- Settles O26: a byte in the queue, and the two ends an empty queue gives. -/
theorem readResult : Obligations.ReadResult := by
  unfold Obligations.ReadResult
  refine fun s rd u1 u2 hk => ⟨fun b q => exec_read_of_cons hk, fun hq he => ?_, fun hq he => ?_⟩
  · simp [exec_read_of_nil hk hq, he]
  · simp [exec_read_of_nil hk hq, he]

/-! ### `write` -/

/-- `write` appends the low byte of its source to the output (R107; D15). -/
theorem exec_write_of_resolve (hk : s.mode = .kernel) (hv : resolve src s = .ok v) :
    exec (.write src u1 u2) s = .next (s.appendOut (BitVec.ofNat 8 (v.toNat % 256))) := by
  refine (exec_privileged_of_kernel guardsOf_write hk).trans ?_
  simp only [behaviourOf, writeBase, hv, lowByte_eq_ofNat]

/-- Settles O27: past the gate `write` has one effect, which never fails. -/
theorem writeResult : Obligations.WriteResult := by
  unfold Obligations.WriteResult
  exact fun s src u1 u2 v => exec_write_of_resolve

/-- Settles O30: a completed `read` took a byte into the register its well-formed destination names, and a well-formed `write`
always has a byte to send. -/
theorem readAndWriteFrame : Obligations.ReadAndWriteFrame := by
  unfold Obligations.ReadAndWriteFrame
  refine fun a0 u1 u2 s t hk => ⟨fun hx hw => ?_, fun hx hw => ?_⟩
  · obtain ⟨rd, rfl⟩ := Arg.eq_reg_of_isReg hw
    cases hq : s.inQueue with
    | nil => cases (exec_read_of_nil hk hq).symm.trans hx
    | cons b q =>
      obtain rfl := next_inj ((exec_read_of_cons hk hq).symm.trans hx)
      refine ⟨fun r hr => ?_, fun _ => rfl, rfl, ⟨rfl, rfl, rfl⟩, ⟨rfl, rfl⟩, ⟨b, rfl⟩, rfl, rfl⟩
      have hne : r ≠ rd := fun h => hr (h ▸ rfl)
      exact (s.setInQueue q).setReg_reg_of_ne hne _
  · obtain ⟨v, hv⟩ := resolve_of_isRegImm hw s
    obtain rfl := next_inj ((exec_write_of_resolve hk hv).symm.trans hx)
    exact ⟨fun _ _ => rfl, fun _ => rfl, rfl, ⟨rfl, rfl, rfl⟩, ⟨rfl, rfl⟩, ⟨_, rfl⟩, rfl, rfl⟩

/-! ### `halt` and `unreachable` -/

/-- The all-zero word is `halt` (30_encoding.md R56). -/
theorem decode_zero : decode 0 = .ok (.halt (.reg 0) (.reg 0) (.reg 0)) := rfl

/-- Settles O28: past the gate the flag is set; at the gate a complete delivery leaves the halt state alone. -/
theorem haltResult : Obligations.HaltResult := by
  unfold Obligations.HaltResult
  refine ⟨fun s u0 u1 u2 => ⟨fun hk => ?_, fun hu hcells => ?_⟩, decode_zero⟩
  · exact ⟨s.halt, exec_halt_of_kernel hk, rfl, rfl, rfl, fun _ _ => rfl, fun _ => rfl, ⟨rfl, rfl, rfl⟩, ⟨rfl, rfl, rfl⟩⟩
  · have hd := deliverTrap_of_trapCellsInMemory hcells .illegalInstruction
    have hx : exec (.halt u0 u1 u2) s = _ := exec_privileged_of_user guardsOf_halt hu
    exact ⟨_, by rw [hx, hd, Effect.result_ok], hd, ⟨rfl, rfl⟩⟩

/-- `unreachable` past its gate (R109; D6). -/
theorem exec_unreachable_of_kernel (hk : s.mode = .kernel) :
    exec (.unreachable u0 u1 u2) s = .next (s.raise .unreachable) :=
  exec_privileged_of_kernel guardsOf_unreachable hk

/-- Settles O29: raising the error is all that `unreachable` does. -/
theorem unreachableResult : Obligations.UnreachableResult := by
  unfold Obligations.UnreachableResult
  exact fun s u0 u1 u2 hk => ⟨s.raise .unreachable, exec_unreachable_of_kernel hk, rfl, rfl, rfl, fun _ _ => rfl,
    fun _ => rfl, ⟨rfl, rfl, rfl⟩, ⟨rfl, rfl, rfl⟩⟩

end Sys2Proof.Machine
end

section
/-! A USER-mode step performs no device operation (43_device_and_halt.md R105): what a trap, a `syscall` and the instructions
outside the privileged gate leave of the queue, its end flag and the output. -/

namespace Sys2Proof.Machine

variable {p : Params} {i : Instr} {s t : State}

theorem TrapFrame.devices (f : TrapFrame p s t) : sameDevices s t := ⟨f.inQueue, f.inEof, f.outLog⟩

theorem syscallEffect_devices (n : Word) : sameDevices s (syscallEffect p n s).state := by
  have hd := (deliverTrap_frame p .syscall s).devices
  rcases syscallEffect_state_cases p n s with hs | ⟨a, _, hs⟩ <;> rw [hs] <;> exact hd

/-- An error raised after a sequence of effects touches no device. -/
theorem Effect.devices_of_result {e : Effect} (h : sameDevices s e.state) (ht : e.result = .next t) : sameDevices s t := by
  rcases Effect.result_next ht with rfl | ⟨k, rfl⟩ <;> exact h

/-- The two device instructions are behind the privileged gate. -/
theorem ExecStep.devices_of_user (hx : ExecStep i s t) (hu : s.mode = .user) : sameDevices s t := by
  cases hx with
  | read _ _ _ hk | write _ hk => simp [hu] at hk
  | trap r _ _ _ ht => exact Effect.devices_of_result (deliverTrap_frame _ r s).devices ht
  | syscall _ _ _ n _ _ _ ht => exact Effect.devices_of_result (syscallEffect_devices n) ht
  | nothing | error | setReg | setCell | halt | configureTraps | enterUserMode => exact ⟨rfl, rfl, rfl⟩

theorem StepCase.devices_of_user (hc : StepCase s t) (hu : s.mode = .user) : sameDevices s t := by
  cases hc with
  | timer r _ _ hd ht | timerError r _ _ hd ht =>
    have f := timer_frame hd
    exact ht ▸ f.devices
  | fetchError s1 e h1 ht _ =>
    obtain ⟨c, rfl, _⟩ := hookPasses_eq_setCounter h1
    exact ht ▸ ⟨rfl, rfl, rfl⟩
  | instruction s1 i h1 _ hx =>
    obtain ⟨c, rfl, _⟩ := hookPasses_eq_setCounter h1
    exact (exec_cases hx).devices_of_user hu

/-- Settles O50: what would touch a device, the trap configuration, or the halted flag without an error is a KERNEL-mode
step. -/
theorem userStepKeepsDevices : Obligations.UserStepKeepsDevices := by
  unfold Obligations.UserStepKeepsDevices
  intro s t hu hstep
  obtain ⟨hrunning, hc⟩ := step_cases hstep
  refine ⟨hc.devices_of_user hu, ?_, fun hhalted => ?_⟩
  · exact hc.trapCfg.resolve_right fun ⟨hk, _⟩ => by simp [hu] at hk
  · rcases hc.haltState_cases with ⟨hsame, _⟩ | hr | ⟨hk, _⟩
    · simp [hrunning, hhalted] at hsame
    · exact Option.isSome_iff_ne_none.mpr hr
    · simp [hu] at hk

end Sys2Proof.Machine
end

section
/-! `Hold` (43_device_and_halt.md R106; D15): every instruction but `read` has a next state, so a step that has none was a
KERNEL-mode `read`'s. -/

namespace Sys2Proof

/-! ### What decodes is well formed (30_encoding.md R50, R52) -/

/-- What a registry decodes, its row's validator accepts. -/
theorem decodeIn_accepts {G B : Type} {r : Registry G B} {w : Word} {d : Decoded G B} (h : decodeIn r w = .ok d) :
    d.definition.accepts d.arg0 d.arg1 d.arg2 = true := by
  obtain ⟨hrow, heq⟩ := decodeIn_ok h
  rw [heq]
  cases ha : d.definition.accepts (Arg.ofByte w.arg0Field) (Arg.ofByte w.arg1Field) (Arg.ofByte w.arg2Field) with
  | true => rfl
  | false => cases (decodeIn_of_rejects hrow ha).symm.trans h

theorem Instr.wellFormed_of_decode {w : Word} {i : Instr} (h : decode w = .ok i) : i.wellFormed = true := by
  rw [decode] at h
  cases hd : decodeIn registry w with
  | error e => rw [hd] at h; cases h
  | ok d =>
    rw [hd] at h
    cases h
    obtain ⟨hrow, _⟩ := decodeIn_ok hd
    obtain ⟨row, hrow', _, haccepts, _⟩ := registryRow d.instr
    simp only [Decoded.instr, Mnemonic.build_mnemonic, Mnemonic.build_args, opcodeOf_of_getElem? hrow] at hrow' haccepts
    obtain rfl : d.definition = row := Option.some_inj.mp (hrow.symm.trans hrow')
    exact haccepts.symm.trans (decodeIn_accepts hd)

theorem Instr.build_mnemonic_args (i : Instr) : i.mnemonic.build i.args.1 i.args.2.1 i.args.2.2 = i := by
  obtain ⟨row, _, hbase, _, hbuild⟩ := registryRow i
  exact hbase ▸ hbuild

end Sys2Proof

namespace Sys2Proof.Machine

variable {p : Params} {m : Mnemonic} {i : Instr} {s : State} {f : Fault} {a0 a1 a2 : Arg}

/-! ### Outcomes that are next states -/

theorem Effect.result_isNext (e : Effect) : ∃ t, e.result = .next t := by
  cases e <;> exact ⟨_, rfl⟩

/-- Guards end a step in a next state or hand it on. -/
theorem runChain_isNext {base : State → StepResult} (hb : ∀ s, ∃ t, base s = .next t) (gs : List Guard) (s : State) :
    ∃ t, runChain gs base s = .next t := by
  induction gs generalizing s with
  | nil => exact hb s
  | cons g gs ih =>
    cases he : (g s).error with
    | some e => exact ⟨_, runChain_error he⟩
    | none =>
      cases hs : (g s).skip with
      | true => exact ⟨_, runChain_skip he hs⟩
      | false => exact runChain_continue he hs ▸ ih (g s).state

/-- Every base behaviour but that of `read` has a next state. -/
theorem behaviourOf_isNext (hm : m ≠ .read) : ∃ t, behaviourOf m p a0 a1 a2 s = .next t := by
  cases m with
  | read => exact absurd rfl hm
  | halt | unreachable | configureTraps | enterUserMode => exact ⟨_, rfl⟩
  | move | loadLiteral | cmove | add | sub | mul | and | or | xor | not | shl | shr => exact Effect.result_isNext _
  | div =>
    simp only [behaviourOf, divBase]
    split
    · exact ⟨_, rfl⟩
    · exact Effect.result_isNext _
  | write =>
    simp only [behaviourOf, writeBase]
    split <;> exact ⟨_, rfl⟩
  | load =>
    simp only [behaviourOf, loadBase]
    split
    · exact ⟨_, rfl⟩
    · split
      · exact ⟨_, rfl⟩
      · exact Effect.result_isNext _
  | store =>
    simp only [behaviourOf, storeBase]
    split
    · exact ⟨_, rfl⟩
    · split
      · exact ⟨_, rfl⟩
      · exact Effect.result_isNext _
  | syscall =>
    simp only [behaviourOf, syscallBase]
    split
    · exact ⟨_, rfl⟩
    · exact Effect.result_isNext _

theorem exec_isNext (hi : i.mnemonic ≠ .read) (s : State) : ∃ t, exec i s = .next t := by
  rw [← i.build_mnemonic_args, exec_build]
  exact runChain_isNext (fun _ => behaviourOf_isNext hi) _ s

/-! ### Outcomes that are faults -/

/-- A `read` with no next state is past its gate and finds an empty queue. -/
theorem exec_read_fault (h : exec (.read a0 a1 a2) s = .fault f) : s.mode = .kernel ∧ s.inQueue = [] := by
  cases hm : s.mode with
  | user =>
    have hx : exec (.read a0 a1 a2) s = _ := exec_privileged_of_user guardsOf_read hm
    obtain ⟨t, ht⟩ := Effect.result_isNext (deliverTrap reference .illegalInstruction s)
    cases (hx.trans ht).symm.trans h
  | kernel =>
    cases hq : s.inQueue with
    | nil => exact ⟨rfl, rfl⟩
    | cons b q =>
      have hx : exec (.read a0 a1 a2) s = _ := exec_privileged_of_kernel guardsOf_read hm
      simp only [behaviourOf, readBase, hq] at hx
      obtain ⟨t, ht⟩ := Effect.result_isNext ((writeDest a0 (zextByte b) s).andThen fun s' => .ok (s'.setInQueue q))
      cases (hx.trans ht).symm.trans h

/-- An instruction that has no next state is a KERNEL-mode `read` on an empty queue. -/
theorem exec_fault (h : exec i s = .fault f) :
    (∃ a0 u1 u2, i = .read a0 u1 u2) ∧ s.mode = .kernel ∧ s.inQueue = [] := by
  by_cases hi : i.mnemonic = .read
  · obtain ⟨a0, u1, u2, rfl⟩ : ∃ a0 u1 u2, i = .read a0 u1 u2 := ⟨_, _, _, hi ▸ i.build_mnemonic_args.symm⟩
    exact ⟨⟨a0, u1, u2, rfl⟩, exec_read_fault h⟩
  · obtain ⟨t, ht⟩ := exec_isNext hi s
    cases ht.symm.trans h

/-- The step the timer takes has a next state. -/
theorem step_isNext_of_fires (hh : s.halted = false) (hu : s.mode = .user)
    (hfires : reference.timerFires (s.counter + 1) reference.timerThreshold = true) : ∃ t, step s = .next t := by
  have hook := preExecuteHook_fires hu hfires
  cases hd : deliverTrap reference .timer (s.setCounter (s.counter + 1)) with
  | ok r =>
    rw [hd] at hook
    exact ⟨r.setCounter 0, by simp [step, stepWith, beginStep, hh, hook]⟩
  | err e r =>
    rw [hd] at hook
    exact ⟨r.raise e, by simp [step, stepWith, beginStep, hh, hook]⟩

/-- A step ends in a fault only where the instruction it fetched does (40_step_cycle.md R68 to R73). -/
theorem step_fault (h : step s = .fault f) :
    s.halted = false ∧ ∃ s1 i, s.hookPasses reference s1 ∧ s.fetches i ∧ exec i (s1.setReg ipReg (s.ip + 1)) = .fault f := by
  cases hh : s.halted with
  | true => cases (stepWith_of_halted hh).symm.trans h
  | false =>
    rcases hookPasses_or_fires reference s with ⟨s1, h1⟩ | ⟨hu, hfires⟩
    · rcases Nat.lt_or_ge s.ip.toNat reference.memWords with hin | hout
      · cases hd : decode (s.cell s.ip) with
        | error e => cases (stepWith_of_decode_error hh h1 hin hd).symm.trans h
        | ok i =>
          have hf : s.fetches i := ⟨(inMemory_iff _).mpr hin, hd⟩
          exact ⟨rfl, s1, i, h1, hf, (step_of_fetches hh h1 hf).symm.trans h⟩
      · cases (stepWith_of_ip_outside hh h1 hout).symm.trans h
    · obtain ⟨t, ht⟩ := step_isNext_of_fires hh hu hfires
      cases ht.symm.trans h

/-- Settles O57: the held step is a KERNEL-mode `read`'s, whose destination is a register since it decoded; the append changes
neither what is fetched nor the mode. -/
theorem holdIsLiftedByAnAppend : Obligations.HoldIsLiftedByAnAppend := by
  unfold Obligations.HoldIsLiftedByAnAppend
  intro s t b bs hstep happend
  obtain ⟨hrunning, s1, i, h1, hf, hx⟩ := step_fault hstep
  obtain ⟨c, rfl, _⟩ := hookPasses_eq_setCounter h1
  obtain ⟨⟨a0, u1, u2, rfl⟩, hmode, hqueue⟩ := exec_fault hx
  have hk : s.mode = .kernel := hmode
  have hempty : s.inQueue = [] := hqueue
  obtain ⟨rd, rfl⟩ := Arg.eq_reg_of_isReg (Instr.wellFormed_of_decode hf.2)
  obtain rfl := hostAppend_some happend
  have hqueue : (s.setInQueue (s.inQueue ++ b :: bs)).inQueue = b :: bs := by simp [hempty]
  have hstep' := step_of_fetches (s := s.setInQueue (s.inQueue ++ b :: bs)) hrunning (.inl ⟨hk, rfl⟩) hf
  exact ⟨rd, u1, u2, hk, hf, hstep'.trans (exec_read_of_cons hk hqueue)⟩

end Sys2Proof.Machine
end

section
/-! The kernel instructions (44_kernel_instructions.md R113 to R115): what `configure-traps` and `enter-user-mode` do past the
privileged gate, and a `syscall` whose cells lie in memory. -/

namespace Sys2Proof.Machine

variable {p : Params} {s : State} {u0 u1 u2 : Arg}

/-! ### Complete trap delivery (60_exceptions.md R123) -/

theorem trapped_trapCfg (r : Reason) (s : State) : (trapped r s).trapCfg = s.trapCfg := rfl

theorem trapped_ip (r : Reason) (s : State) : (trapped r s).ip = s.trapCfg.handler := by simp [trapped]

theorem trapped_reg_of_ne (r : Reason) {q : Reg} (h : q ≠ ipReg) : (trapped r s).reg q = s.reg q := by simp [trapped, h]

theorem trapped_mem_wf (hwf : s.mem.wf p.memWords) (h : s.trapCellsInMemory p) (r : Reason) :
    (trapped r s).mem.wf p.memWords := by
  have f := deliverTrap_frame p r s
  rw [deliverTrap_of_trapCellsInMemory h r] at f
  exact f.wf hwf

/-- The reason is written after the return address, so its cell holds it even where the two coincide. -/
theorem trapped_reasonCell (hwf : s.mem.wf p.memWords) (hret : inMemory p s.trapCfg.retCell = true) (r : Reason) :
    (trapped r s).cell s.trapCfg.reasonCell = r.code :=
  State.setCell_cell_same (((s.setMode .kernel).setCell s.trapCfg.retCell s.ip).setReg ipReg s.trapCfg.handler)
    (State.wf_setCell (s.setMode .kernel) hwf hret s.ip) _ _

/-- The return-address cell holds the old register 7 where the reason does not overwrite it. -/
theorem trapped_retCell {words : Nat} (hwf : s.mem.wf words) (hne : s.trapCfg.retCell ≠ s.trapCfg.reasonCell) (r : Reason) :
    (trapped r s).cell s.trapCfg.retCell = s.ip :=
  (State.setCell_cell_of_ne _ hne _).trans (State.setCell_cell_same (s.setMode .kernel) hwf _ _)

/-! ### `syscall` -/

/-- The state a `syscall` of number `n` leaves where its three cells lie in memory. -/
def afterSyscall (n : Word) (s : State) : State :=
  ((trapped .syscall s).setCell s.trapCfg.sysnoCell n).setCounter (s.counter - 1)

/-- With its three cells in memory `syscall` makes all its effects: the trap, the number, the counter (R115). -/
theorem syscallEffect_of_inMemory (h : s.trapCellsInMemory p) (hsys : inMemory p s.trapCfg.sysnoCell = true) (n : Word) :
    syscallEffect p n s = .ok (afterSyscall n s) := by
  have hw : memWrite p s.trapCfg.sysnoCell n (trapped .syscall s) = _ := memWrite_of_inMemory hsys
  rw [syscallEffect, deliverTrap_of_trapCellsInMemory h, Effect.andThen_ok, trapped_trapCfg, hw, Effect.andThen_ok]
  rfl

theorem afterSyscall_sysnoCell (hwf : s.mem.wf p.memWords) (h : s.trapCellsInMemory p) (n : Word) :
    (afterSyscall n s).cell s.trapCfg.sysnoCell = n :=
  State.setCell_cell_same _ (trapped_mem_wf hwf h .syscall) _ n

/-- The other cells are as the trap leaves them. -/
theorem afterSyscall_cell_of_ne {a : Word} (ha : a ≠ s.trapCfg.sysnoCell) (n : Word) :
    (afterSyscall n s).cell a = (trapped .syscall s).cell a :=
  State.setCell_cell_of_ne _ ha n

/-- Settles O33: the number is the last of the three writes, over the state that complete trap delivery leaves. -/
theorem Kernel.syscallEffect : Obligations.SyscallEffect := by
  unfold Obligations.SyscallEffect
  intro s num u1 u2 n hwf hcells hsys hn
  have heff := syscallEffect_of_inMemory hcells ((inMemory_iff (p := reference) _).mpr hsys) n
  refine ⟨afterSyscall n s, ?next, rfl, trapped_ip .syscall s, fun q hq => trapped_reg_of_ne .syscall (by simpa using hq),
    rfl, rfl, rfl, afterSyscall_sysnoCell hwf hcells n, ?reason, ?ret, ?others, ⟨rfl, rfl, rfl⟩, ⟨rfl, rfl⟩⟩
  case next => rw [exec_syscall_of_resolve hn, heff, Effect.result_ok]
  case reason => exact fun hne => (afterSyscall_cell_of_ne hne n).trans (trapped_reasonCell hwf hcells.1 .syscall)
  case ret => exact fun hne hne' => (afterSyscall_cell_of_ne hne n).trans (trapped_retCell hwf hne' .syscall)
  case others =>
    intro a ha
    have hcell := syscallEffect_cell (p := reference) n ha
    rwa [heff] at hcell

/-! ### `configure-traps` and `enter-user-mode` -/

/-- `configure-traps` past its gate (R113). -/
theorem exec_configureTraps_of_kernel (hk : s.mode = .kernel) :
    exec (.configureTraps u0 u1 u2) s = .next (s.setTrapCfg ⟨s.reg 0, s.reg 1, s.reg 2, s.reg 3⟩) :=
  exec_privileged_of_kernel guardsOf_configureTraps hk

/-- Settles O31: past the gate the configuration is all that is written; at the gate a delivery, complete or not, keeps it. -/
theorem configureTrapsEffect : Obligations.ConfigureTrapsEffect := by
  unfold Obligations.ConfigureTrapsEffect
  refine fun s u0 u1 u2 => ⟨fun hk => ?_, fun hu => ?_⟩
  · exact ⟨_, exec_configureTraps_of_kernel hk, rfl, rfl, rfl, rfl, rfl, fun _ _ => rfl, fun _ => rfl, rfl, rfl,
      ⟨rfl, rfl, rfl⟩, ⟨rfl, rfl⟩⟩
  · obtain ⟨t, ht⟩ := (deliverTrap reference .illegalInstruction s).result_isNext
    exact ⟨t, (exec_privileged_of_user guardsOf_configureTraps hu).trans ht, ht, (deliverTrap_next_control ht).1.trapCfg⟩

/-- `enter-user-mode` past its gate (R114). -/
theorem exec_enterUserMode_of_kernel (hk : s.mode = .kernel) :
    exec (.enterUserMode u0 u1 u2) s = .next (returnToUser s) :=
  exec_privileged_of_kernel guardsOf_enterUserMode hk

theorem returnToUser_ip (s : State) : (returnToUser s).ip = s.reg 0 := by simp [returnToUser, State.ip]

theorem returnToUser_reg_zero (s : State) : (returnToUser s).reg 0 = s.stash := by simp [returnToUser]

theorem returnToUser_reg_of_ne {q : Reg} (h0 : q ≠ 0) (hip : q ≠ ipReg) : (returnToUser s).reg q = s.reg q := by
  simp [returnToUser, h0, hip]

/-- Settles O32: past the gate the return from a trap, at the gate the delivery. -/
theorem enterUserModeEffect : Obligations.EnterUserModeEffect := by
  unfold Obligations.EnterUserModeEffect
  refine fun s u0 u1 u2 => ⟨fun hk => ?_, exec_privileged_of_user guardsOf_enterUserMode⟩
  refine ⟨_, exec_enterUserMode_of_kernel hk, rfl, returnToUser_ip s, returnToUser_reg_zero s, fun q hq => ?_, fun _ => rfl,
    ⟨rfl, rfl, rfl⟩, ⟨rfl, rfl, rfl⟩, ⟨rfl, rfl⟩⟩
  obtain ⟨h0, hip⟩ : q ≠ 0 ∧ q ≠ ipReg := by simpa using hq
  exact returnToUser_reg_of_ne h0 hip

end Sys2Proof.Machine
end

section
/-! Trap delivery (60_exceptions.md R123, R138, R139): complete where both its cells lie in memory, else stopped at the first
write that fails. -/

namespace Sys2Proof.Machine

variable {p : Params} {s : State} {r : Reason}

/-- Complete delivery keeps all that any delivery keeps (R123). -/
theorem trapped_frame (h : s.trapCellsInMemory p) (r : Reason) : TrapFrame p s (trapped r s) := by
  have f := deliverTrap_frame p r s
  rwa [deliverTrap_of_trapCellsInMemory h r] at f

theorem not_inMemory_iff (a : Word) : inMemory p a = false ↔ p.memWords ≤ a.toNat := by
  simp [inMemory]

/-- Delivery stops at a return-address cell outside memory, only the mode changed (R138). -/
theorem deliverTrap_of_retCell_outside (hret : inMemory p s.trapCfg.retCell = false) :
    deliverTrap p r s = .err .dataBounds (s.setMode .kernel) := by
  rcases deliverTrap_cases p r s with ⟨hin, _⟩ | ⟨_, hd⟩ | ⟨hin, _⟩
  · simp [hret] at hin
  · exact hd
  · simp [hret] at hin

/-- Delivery stops at a reason cell outside memory, the mode, the return address and register 7 written (R138). -/
theorem deliverTrap_of_reasonCell_outside (hret : inMemory p s.trapCfg.retCell = true)
    (hreason : inMemory p s.trapCfg.reasonCell = false) : deliverTrap p r s =
      .err .dataBounds (((s.setMode .kernel).setCell s.trapCfg.retCell s.ip).setReg ipReg s.trapCfg.handler) := by
  rcases deliverTrap_cases p r s with ⟨_, hin, _⟩ | ⟨hout, _⟩ | ⟨_, _, hd⟩
  · simp [hreason] at hin
  · simp [hret] at hout
  · exact hd

/-- Settles O34: the two cells by what the second write leaves of the first, the rest by the frame of every delivery. -/
theorem trapDelivery : Obligations.TrapDelivery := by
  unfold Obligations.TrapDelivery
  intro p r s hwf hret hreason
  have hcells : s.trapCellsInMemory p := ⟨(inMemory_iff _).mpr hret, (inMemory_iff _).mpr hreason⟩
  have f := trapped_frame hcells r
  have hcode := trapped_reasonCell hwf hcells.1 r
  refine ⟨trapped r s, deliverTrap_of_trapCellsInMemory hcells r, f.mode, trapped_ip r s, rfl, ?_,
    fun hne => trapped_retCell hwf hne r, f.cells, fun q hq => f.regs q (by simpa using hq), f.counter, f.trapCfg,
    f.haltState, f.devices⟩
  cases r <;> exact hcode

/-- Settles O36: cell 0 is both trap cells, and the reason is written last. -/
theorem trapBeforeConfiguration : Obligations.TrapBeforeConfiguration := by
  unfold Obligations.TrapBeforeConfiguration
  intro p r s hpos hwf hcfg
  have hcells : s.trapCellsInMemory p := by simp [State.trapCellsInMemory, hcfg, inMemory_iff, hpos]
  have f := trapped_frame hcells r
  have hcode := trapped_reasonCell hwf hcells.1 r
  have hip := trapped_ip r s
  have hkept := f.cells
  simp only [hcfg] at hcode hip hkept
  exact ⟨trapped r s, deliverTrap_of_trapCellsInMemory hcells r, hcode, hip, f.mode, f.halted, fun a ha => hkept a ha ha⟩

end Sys2Proof.Machine
end

section
/-! The three gates (60_exceptions.md R129 to R132): where the gate of an instruction fires, executing the instruction is
delivering the gate's trap. -/

namespace Sys2Proof.Machine

variable {i : Instr} {s : State} {r : Reason} {addr : Arg} {a : Word}

/-- An instruction runs behind the guards of its own definition. -/
theorem exec_eq_run (i : Instr) (s : State) :
    exec i s = run i.mnemonic i.args.1 i.args.2.1 i.args.2.2 (behaviourOf i.mnemonic) s := by
  rw [← exec_build, i.build_mnemonic_args]

theorem guardsOf_of_isPrivileged (h : i.isPrivileged = true) : registry.guardsOf i.mnemonic = [.privileged] := by
  cases i with
  | halt | unreachable | read | write | configureTraps | enterUserMode => rfl
  | move | loadLiteral | cmove | add | sub | mul | div | and | or | xor | not | shl | shr | load | store | syscall => cases h

theorem guardsOf_of_loadOrStore {m : Mnemonic} (h : m = .load ∨ m = .store) : registry.guardsOf m = [.address] := by
  rcases h with rfl | rfl <;> rfl

/-- A gate that fires takes its trap in place of the instruction (R129 to R131). -/
theorem exec_of_gateFires (hg : i.gateFires s r) (hu : s.mode = .user) :
    exec i s = (deliverTrap reference r s).result := by
  rw [exec_eq_run]
  rcases hg with ⟨rfl, hpriv⟩ | ⟨rfl, hmem, a, ha, hout⟩ | ⟨rfl, hdata, hrd, v, hv, hout⟩
  · rw [run_privileged (guardsOf_of_isPrivileged hpriv), hu]
  · exact (run_address (guardsOf_of_loadOrStore hmem) ha).trans (if_pos ⟨hu, hout⟩)
  · exact run_ipWrite_trap (guardsOf_of_isData hdata) hv ⟨hu, hrd, v, rfl, hout⟩

/-- Settles O18: the ip-write gate fires. -/
theorem ipWriteGateTraps : Obligations.IpWriteGateTraps := by
  unfold Obligations.IpWriteGateTraps
  exact fun i s v hdata hu hrd hv hout => exec_of_gateFires (.inr (.inr ⟨rfl, hdata, hrd, v, hv, hout⟩)) hu

/-- The definitions that carry the privileged gate (40_step_cycle.md R63). -/
theorem privileged_mem_guardsOf_iff (i : Instr) :
    .privileged ∈ registry.guardsOf i.mnemonic ↔ i.isPrivileged = true := by
  refine ⟨fun h => ?_, fun h => by simp [guardsOf_of_isPrivileged h]⟩
  cases i with
  | halt | unreachable | read | write | configureTraps | enterUserMode => rfl
  | move | loadLiteral | cmove | add | sub | mul | div | and | or | xor | not | shl | shr | load | store | syscall =>
    simp [Instr.mnemonic] at h

theorem privGate_of_kernel {p : Params} (hk : s.mode = .kernel) : privGate p s = .pass s := by
  simp only [privGate, hk]

/-- Settles O25: the gate fires in USER mode, passes in KERNEL mode, and stands in six rows of the registry. -/
theorem privilegedGate : Obligations.PrivilegedGate := by
  unfold Obligations.PrivilegedGate
  exact ⟨fun i s hpriv => exec_of_gateFires (.inl ⟨rfl, hpriv⟩), fun s => privGate_of_kernel, privileged_mem_guardsOf_iff⟩

/-- The address gate passes in KERNEL mode, and on an address in the user region (R130). -/
theorem addrGate_pass {p : Params} (ha : effectiveAddress addr s = .ok a)
    (h : s.mode = .kernel ∨ inBounds p a = true) : addrGate p addr s = .pass s := by
  have ha : resolve addr s = .ok a := ha
  cases hm : s.mode with
  | kernel => simp only [addrGate, hm]
  | user =>
    have hin : inBounds p a = true := h.resolve_left (by simp [hm])
    simp only [addrGate, hm, ha, hin, if_true]

/-- Settles O22: the gate of `load` and of `store` fires or passes by the comparator alone. -/
theorem addressGate : Obligations.AddressGate := by
  unfold Obligations.AddressGate
  refine ⟨fun p => inBounds_iff, inBounds_iff, fun s a0 addr u ea ha => ⟨fun hu hout => ?_, addrGate_pass ha⟩, rfl, rfl⟩
  exact ⟨exec_of_gateFires (.inr (.inl ⟨rfl, .inl rfl, ea, ha, hout⟩)) hu,
    exec_of_gateFires (.inr (.inl ⟨rfl, .inr rfl, ea, ha, hout⟩)) hu⟩

end Sys2Proof.Machine
end

section
/-! The preemption timer (60_exceptions.md R124 to R128): the hook, the step it takes, and the bound on a run in USER mode. -/

namespace Sys2Proof.Machine

variable {p : Params} {s t : State} {e : HostError} {n : Nat}

/-! ### The hook and the step it takes -/

/-- The hook where the timer's delivery is complete. -/
theorem preExecuteHook_of_delivered (hu : s.mode = .user) (hf : p.timerFires (s.counter + 1) p.timerThreshold = true)
    (hd : deliverTrap p .timer (s.setCounter (s.counter + 1)) = .ok t) :
    preExecuteHook p s = ⟨t.setCounter 0, true, none⟩ := by
  rw [preExecuteHook_fires hu hf, hd]

/-- The hook where the timer's delivery fails. -/
theorem preExecuteHook_of_failed (hu : s.mode = .user) (hf : p.timerFires (s.counter + 1) p.timerThreshold = true)
    (hd : deliverTrap p .timer (s.setCounter (s.counter + 1)) = .err e t) :
    preExecuteHook p s = ⟨t, false, some e⟩ := by
  rw [preExecuteHook_fires hu hf, hd]

/-- Settles O37: the three answers of the hook, and the reference timer's equality. -/
theorem preExecuteHookBehaviour : Obligations.PreExecuteHookBehaviour := by
  unfold Obligations.PreExecuteHookBehaviour
  refine ⟨reference_fires_iff, fun p s => ⟨preExecuteHook_kernel, preExecuteHook_count,
    fun hu hf => ⟨fun t => preExecuteHook_of_delivered hu hf, fun e t hd => ?_⟩⟩⟩
  have hook := preExecuteHook_of_failed hu hf hd
  exact ⟨deliverTrap_err hd, congrArg Answer.error hook, congrArg Answer.state hook⟩

/-- The timer step is the hook's delivery, whatever register 7 names (R126; 40_step_cycle.md R69). -/
theorem step_of_timer_delivered (hh : s.halted = false) (hu : s.mode = .user) (h129 : s.counter + 1 = 129)
    (hd : deliverTrap reference .timer (s.setCounter (s.counter + 1)) = .ok t) : step s = .next (t.setCounter 0) := by
  have hook := preExecuteHook_of_delivered hu ((reference_fires_iff _).mpr h129) hd
  simp [step, stepWith, beginStep, hh, hook]

/-- The step whose timer delivery fails raises the delivery's error (R138; 40_step_cycle.md R69). -/
theorem step_of_timer_failed (hh : s.halted = false) (hu : s.mode = .user) (h129 : s.counter + 1 = 129)
    (hd : deliverTrap reference .timer (s.setCounter (s.counter + 1)) = .err e t) : step s = .next (t.raise e) := by
  have hook := preExecuteHook_of_failed hu ((reference_fires_iff _).mpr h129) hd
  simp [step, stepWith, beginStep, hh, hook]

/-- Settles O38: the delivery is complete, and the hook resets the counter in the state it leaves. -/
theorem timerStep : Obligations.TimerStep := by
  unfold Obligations.TimerStep
  intro s hh hu h129 hwf hcells
  have hcounted : (s.setCounter (s.counter + 1)).trapCellsInMemory reference := hcells
  obtain ⟨t, hd, hmode, hip, hstash, hreason, hret, hkept, hregs, _, hcfg, hhalt, hdev⟩ :=
    trapDelivery reference .timer (s.setCounter (s.counter + 1)) hwf ((inMemory_iff _).mp hcells.1)
      ((inMemory_iff _).mp hcells.2)
  exact ⟨t.setCounter 0, step_of_timer_delivered hh hu h129 hd, hmode, hip, hreason, hret, hkept, rfl, hstash, hregs, hcfg,
    hdev, hhalt⟩

/-! ### The bound (R128) -/

/-- The reference hook passes in USER mode only where the incremented counter is not the threshold. -/
theorem hookPasses_user {s1 : State} (h : s.hookPasses reference s1) (hu : s.mode = .user) :
    s.counter + 1 ≠ 129 ∧ s1 = s.setCounter (s.counter + 1) := by
  rcases h with ⟨hk, _⟩ | ⟨_, hf, rfl⟩
  · simp [hu] at hk
  · exact ⟨fun h129 => Bool.eq_false_iff.mp hf ((reference_fires_iff _).mpr h129), rfl⟩

/-- The first of several steps in a row. -/
theorem steps_first (h : steps (n + 1) s = .next t) : ∃ u, step s = .next u ∧ steps n u = .next t := by
  rw [steps] at h
  cases hs : step s with
  | next u => exact ⟨u, rfl, by rwa [hs] at h⟩
  | fault | refused => rw [hs] at h; cases h

/-- The last of several steps in a row. -/
theorem steps_last (h : steps (n + 1) s = .next t) : ∃ u, steps n s = .next u ∧ step u = .next t := by
  induction n generalizing s with
  | zero =>
    obtain ⟨u, hu, ht⟩ := steps_first h
    exact ⟨s, rfl, hu.trans ht⟩
  | succ n ih =>
    obtain ⟨s1, hs, hrest⟩ := steps_first h
    obtain ⟨u, hu, ht⟩ := ih hrest
    exact ⟨u, by rw [steps, hs]; exact hu, ht⟩

/-- A USER-mode step that stays in USER mode is counted, short of the threshold: the timer, a gate and `syscall` all leave
KERNEL mode. -/
theorem StepCase.counter_of_staysUser (hc : StepCase s t) (hu : s.mode = .user) (ht : t.mode = .user) :
    t.counter = s.counter + 1 ∧ s.counter + 1 ≠ 129 := by
  cases hc with
  | timer r _ _ hd heq | timerError r _ _ hd heq =>
    have hk : t.mode = .kernel := heq ▸ (timer_frame hd).mode
    simp [ht] at hk
  | fetchError s1 e h1 heq _ =>
    obtain ⟨hne, rfl⟩ := hookPasses_user h1 hu
    exact ⟨heq ▸ rfl, hne⟩
  | instruction s1 i h1 _ hx =>
    obtain ⟨hne, rfl⟩ := hookPasses_user h1 hu
    refine ⟨?_, hne⟩
    rcases (exec_cases hx).control_cases with ⟨hct, _⟩ | ⟨_, _, hct, _⟩ | ⟨_, _, hct⟩ | ⟨_, hentry, _⟩
    · exact hct
    · exact hct
    · exact hct
    · have hk := hentry.mode
      simp [ht] at hk

/-- Settles O39: each step that stays in USER mode adds one, and the one that would reach the threshold does not stay. -/
theorem preemptionBound : Obligations.PreemptionBound := by
  unfold Obligations.PreemptionBound
  intro n s t hu h0 hstays hrun
  induction n generalizing t with
  | zero =>
    obtain rfl := next_inj hrun
    simp [h0]
  | succ n ih =>
    obtain ⟨u, hrun', hstep⟩ := steps_last hrun
    obtain ⟨hcount, hlt⟩ := ih u (fun k v hk => hstays k v (Nat.le_succ_of_le hk)) hrun'
    obtain ⟨hct, hne⟩ := (step_cases hstep).2.counter_of_staysUser (hstays n u n.le_succ hrun') (hstays _ t (Nat.le_refl _) hrun)
    rw [hct]
    constructor <;> bv_omega

end Sys2Proof.Machine
end

section
/-! The mode (60_exceptions.md R140): an instruction changes it by `enter-user-mode` past its gate, or by the trap of its gate
or of `syscall`; a step, by the timer too. A delivery that fails ends the step that took it (R138). -/

namespace Sys2Proof.Machine

variable {p : Params} {i : Instr} {s t : State} {r : Reason} {e : HostError} {n : Word}

/-- `t` is the outcome of a delivery for `i` in `s`: that of its gate, or that of a `syscall`. -/
abbrev TrapOutcome (i : Instr) (s t : State) : Prop :=
  (∃ r, i.gateFires s r ∧ (deliverTrap reference r s).result = .next t) ∨
  (∃ num u1 u2 n, i = .syscall num u1 u2 ∧ resolve num s = .ok n ∧ (syscallEffect reference n s).result = .next t)

/-- What an instruction can do to the mode. -/
theorem ExecStep.mode_cases (hx : ExecStep i s t) :
    t.mode = s.mode ∨
    (s.mode = .kernel ∧ (∃ u0 u1 u2, i = .enterUserMode u0 u1 u2) ∧ t = returnToUser s) ∨
    (t.mode = .kernel ∧ TrapOutcome i s t) := by
  cases hx with
  | enterUserMode u0 u1 u2 hk hi => exact .inr (.inl ⟨hk, ⟨u0, u1, u2, hi⟩, rfl⟩)
  | trap r _ hr _ ht => exact .inr (.inr ⟨(deliverTrap_next_control ht).1.mode, .inl ⟨r, hr, ht⟩⟩)
  | syscall num u1 u2 n _ hi hn ht =>
    exact .inr (.inr ⟨(syscallEffect_next_control ht).1.mode, .inr ⟨num, u1, u2, n, hi, hn, ht⟩⟩)
  | nothing | error | setReg | setCell | read | write | halt | configureTraps => exact .inl rfl

/-- From KERNEL mode to USER mode only by the return of a fetched `enter-user-mode`. -/
theorem StepCase.enters_user (hc : StepCase s t) (hk : s.mode = .kernel) (ht : t.mode = .user) :
    ∃ u0 u1 u2, s.fetches (.enterUserMode u0 u1 u2) ∧ t = returnToUser (s.setReg ipReg (s.ip + 1)) := by
  cases hc with
  | timer _ hu | timerError _ hu => simp [hk] at hu
  | fetchError s1 e h1 heq _ =>
    obtain ⟨c, rfl, _⟩ := hookPasses_eq_setCounter h1
    simp [heq, hk] at ht
  | instruction s1 i h1 hf hx =>
    obtain rfl : s1 = s := h1.elim And.right fun ⟨hu, _⟩ => by simp [hk] at hu
    rcases (exec_cases hx).mode_cases with hm | ⟨_, ⟨u0, u1, u2, rfl⟩, heq⟩ | ⟨hm, _⟩
    · simp [ht, hk] at hm
    · exact ⟨u0, u1, u2, hf, heq⟩
    · simp [ht] at hm

/-- From USER mode to KERNEL mode only by a delivery: the timer's at the threshold, else one for the fetched instruction. -/
theorem StepCase.leaves_user (hc : StepCase s t) (hu : s.mode = .user) (ht : t.mode = .kernel) :
    (s.counter + 1 = 129 ∧ ∃ u,
      (deliverTrap reference .timer (s.setCounter (s.counter + 1)) = .ok u ∧ t = u.setCounter 0) ∨
      (deliverTrap reference .timer (s.setCounter (s.counter + 1)) = .err .dataBounds u ∧ t = u.raise .dataBounds)) ∨
    (s.counter + 1 ≠ 129 ∧ ∃ i s1, s.fetches i ∧ s1 = (s.setCounter (s.counter + 1)).setReg ipReg (s.ip + 1) ∧
      TrapOutcome i s1 t) := by
  cases hc with
  | timer u _ h129 hd heq => exact .inl ⟨h129, u, .inl ⟨hd, heq⟩⟩
  | timerError u _ h129 hd heq => exact .inl ⟨h129, u, .inr ⟨hd, heq⟩⟩
  | fetchError s1 e h1 heq _ =>
    obtain ⟨_, rfl⟩ := hookPasses_user h1 hu
    simp [heq, hu] at ht
  | instruction s1 i h1 hf hx =>
    obtain ⟨hne, rfl⟩ := hookPasses_user h1 hu
    refine .inr ⟨hne, i, _, hf, rfl, ?_⟩
    rcases (exec_cases hx).mode_cases with hm | ⟨hk, _⟩ | ⟨_, htrap⟩
    · simp [ht, hu] at hm
    · simp [hu] at hk
    · exact htrap

/-- Settles O46: the two changes of mode, each followed through the ways a step can end. -/
theorem modeChangesOnlyAsStated : Obligations.ModeChangesOnlyAsStated := by
  unfold Obligations.ModeChangesOnlyAsStated
  exact ⟨rfl, fun s t h => ⟨(step_cases h).2.enters_user, (step_cases h).2.leaves_user⟩⟩

/-! ### Deliveries that fail -/

/-- A `syscall` whose delivery fails goes no further (44_kernel_instructions.md R115). -/
theorem syscallEffect_of_failed (hd : deliverTrap p .syscall s = .err e t) : syscallEffect p n s = .err e t := by
  rw [syscallEffect, hd, Effect.andThen_err]

/-- A `syscall` whose number cell alone is outside memory keeps the delivery. -/
theorem syscallEffect_of_sysnoCell_outside (hd : deliverTrap p .syscall s = .ok t)
    (hout : inMemory p s.trapCfg.sysnoCell = false) : syscallEffect p n s = .err .dataBounds t := by
  have f := deliverTrap_frame p .syscall s
  rw [hd] at f
  have hcfg : t.trapCfg = s.trapCfg := f.trapCfg
  rw [syscallEffect, hd, Effect.andThen_ok, hcfg, memWrite_of_not_inMemory hout, Effect.andThen_err]

/-- Settles O35: where delivery stops is the model's case analysis of it; the step ends as the hook, the gate or the `syscall`
that took the delivery does. -/
theorem trapCellOutsideMemory : Obligations.TrapCellOutsideMemory := by
  unfold Obligations.TrapCellOutsideMemory
  refine ⟨fun p r s => ⟨fun hret => ?ret, fun hret hreason => ?reason, fun e t => deliverTrap_err⟩,
    fun s t e => step_of_timer_failed, fun s s1 s2 i hh h1 hf hs2 => ?instruction⟩
  case ret => exact deliverTrap_of_retCell_outside ((not_inMemory_iff _).mpr hret)
  case reason =>
    exact ⟨_, deliverTrap_of_reasonCell_outside ((inMemory_iff _).mpr hret) ((not_inMemory_iff _).mpr hreason), rfl,
      State.setReg_ip_same _ _, rfl, fun hwf => (s.setMode .kernel).setCell_cell_same hwf _ _,
      fun a ha => (s.setMode .kernel).setCell_cell_of_ne ha _⟩
  case instruction =>
    have hstep : step s = exec i s2 := hs2 ▸ step_of_fetches hh h1 hf
    obtain ⟨c, rfl, _⟩ := hookPasses_eq_setCounter h1
    refine ⟨fun r e t hu hg hd => ?gate, fun num u1 u2 n hi hn => ?syscall⟩
    case gate =>
      have hu2 : s2.mode = .user := hs2 ▸ hu
      rw [hstep, exec_of_gateFires hg hu2, hd, Effect.result_err]
    case syscall =>
      rw [hi, exec_syscall_of_resolve hn] at hstep
      refine ⟨fun e t hd => ?_, fun t hd hout => ?_⟩
      · rw [hstep, syscallEffect_of_failed hd, Effect.result_err]
      · have hout2 : inMemory reference s2.trapCfg.sysnoCell = false := hs2 ▸ reference_not_inMemory hout
        rw [hstep, syscallEffect_of_sysnoCell_outside hd hout2, Effect.result_err]

end Sys2Proof.Machine
end

section
/-! Reset with a boot image and a payload (70_reset_and_hazards.md R150 to R152; D22): what memory reads after consecutive
words are placed, the ways a launch ends, and the bytes of the payload's frame. -/

namespace Sys2Proof.Machine

/-! ### Reading after the placing of consecutive words (R150) -/

/-- Placing words leaves the addresses below the first one alone. -/
theorem Memory.get_setAll_of_lt (m : Memory) {a x : Nat} (h : x < a) (ws : List Word) :
    (m.setAll a ws).get x = m.get x := by
  induction ws generalizing m a with
  | nil => rfl
  | cons w ws ih => exact (ih (m.set a w) (by omega)).trans (m.get_set_of_ne a x w (by omega))

/-- From the first address on, a placed word where there is one and the old cell after the last. -/
theorem Memory.get_setAll_add {m : Memory} (h : m.Pairwise fun c d => c.1 < d.1) (a i : Nat) (ws : List Word) :
    (m.setAll a ws).get (a + i) = ws[i]?.getD (m.get (a + i)) := by
  induction ws generalizing m a i with
  | nil => rfl
  | cons w ws ih =>
    cases i with
    | zero => exact (Memory.get_setAll_of_lt (m.set a w) (Nat.lt_succ_self a) ws).trans (m.get_set_same h a w)
    | succ i =>
      have hi := ih (m.pairwise_set h a w) (a + 1) i
      rwa [Nat.add_right_comm, m.get_set_of_ne a _ w (by omega)] at hi

/-! ### The ways a launch ends (R150, R151; D22) -/

section

variable {p : Params} (further : List Byte) (eof : Bool)

/-- A launch that fits is `State.reset` with the image placed from address 0 and the payload framed before the further
input. -/
theorem boot_of_fits (hi : p.bootImage.length ≤ p.kernelWords) (hp : p.payload.length ≤ Config.maxPayloadWords) :
    boot p further eof = .ok { State.reset with
      mem := Memory.setAll [] 0 p.bootImage, inQueue := frame p.payload ++ further, inEof := eof } := by
  rw [boot, if_neg (Nat.not_lt.mpr hi), if_neg (Nat.not_lt.mpr hp)]

theorem boot_of_image_tooLong (hi : p.kernelWords < p.bootImage.length) :
    boot p further eof = .error .bootImageTooLong := if_pos hi

theorem boot_of_payload_tooLong (hi : p.bootImage.length ≤ p.kernelWords)
    (hp : Config.maxPayloadWords < p.payload.length) : boot p further eof = .error .payloadTooLong := by
  rw [boot, if_neg (Nat.not_lt.mpr hi), if_pos hp]

end

/-- An image of at most `KERNEL_WORDS` words lies inside memory (00_scope.md R4). -/
theorem image_length_le_memWords {p : Params} (hv : p.valid) (hi : p.bootImage.length ≤ p.kernelWords) :
    p.bootImage.length ≤ p.memWords := by
  obtain ⟨hbase, hlimit, _, hkernel⟩ := hv
  omega

/-- Settles O54: the three ways a launch ends; an accepted one by the laws of placing the image in an empty memory, its other
fields as they are written. -/
theorem bootState : Obligations.BootState := by
  unfold Obligations.BootState
  intro p further eof hv
  refine ⟨fun hi hp => ⟨_, boot_of_fits further eof hi hp, ⟨?wf, nofun⟩, fun a => ?cell, State.reset_reg, rfl, rfl,
      ⟨rfl, rfl, rfl⟩, rfl, rfl, rfl⟩,
    boot_of_image_tooLong further eof, boot_of_payload_tooLong further eof⟩
  case wf =>
    have hnil : Memory.wf [] p.memWords := ⟨.nil, nofun⟩
    exact Memory.wf_setAll hnil 0 _ (Nat.le_trans (Nat.le_of_eq (Nat.zero_add _)) (image_length_le_memWords hv hi))
  case cell =>
    have hcell := Memory.get_setAll_add (m := []) .nil 0 a.toNat p.bootImage
    rw [Nat.zero_add] at hcell
    exact hcell

/-! ### The bytes of a word and of a frame (20_memory.md R32, R152) -/

/-- The two bytes of a 16-bit count, most significant first, are its digits in base 256. -/
theorem toNat_of_bytes16 (n : BitVec 16) :
    (n.extractLsb' 8 8).toNat * 256 + (n.extractLsb' 0 8).toNat = n.toNat := by
  simp only [BitVec.extractLsb'_toNat, Nat.shiftRight_eq_div_pow]
  omega

/-- The four bytes of a Word, most significant first, are its digits in base 256. -/
theorem toNat_of_bytes32 (w : Word) :
    (((w.extractLsb' 24 8).toNat * 256 + (w.extractLsb' 16 8).toNat) * 256 + (w.extractLsb' 8 8).toNat) * 256 +
      (w.extractLsb' 0 8).toNat = w.toNat := by
  simp only [BitVec.extractLsb'_toNat, Nat.shiftRight_eq_div_pow]
  omega

theorem length_wordToBytes (w : Word) : (wordToBytes w).length = 4 := rfl

theorem length_flatMap_wordToBytes (ws : List Word) : (ws.flatMap wordToBytes).length = 4 * ws.length := by
  induction ws with
  | nil => rfl
  | cons w ws ih =>
    rw [List.flatMap_cons, List.length_append, length_wordToBytes, ih, List.length_cons]
    omega

/-- Skipping four bytes a word skips whole words. -/
theorem drop_flatMap_wordToBytes (ws : List Word) (k : Nat) :
    (ws.flatMap wordToBytes).drop (4 * k) = (ws.drop k).flatMap wordToBytes := by
  induction k generalizing ws with
  | zero => rfl
  | succ k ih =>
    cases ws with
    | nil => rfl
    | cons w ws => exact ih ws

/-- After the count and the bytes of the words before it come the four bytes of word `k`. -/
theorem frame_word {payload : List Word} {k : Nat} {w : Word} (h : payload[k]? = some w) {j : Nat} (hj : j < 4) :
    (frame payload)[2 + 4 * k + j]? = (wordToBytes w)[j]? := by
  obtain ⟨hk, rfl⟩ := List.getElem?_eq_some_iff.mp h
  calc (frame payload)[2 + 4 * k + j]?
      = (payload.flatMap wordToBytes)[4 * k + j]? := by rw [Nat.add_assoc, ← List.getElem?_drop]; rfl
    _ = ((payload.drop k).flatMap wordToBytes)[j]? := by rw [← List.getElem?_drop, drop_flatMap_wordToBytes]
    _ = (wordToBytes payload[k] ++ (payload.drop (k + 1)).flatMap wordToBytes)[j]? := by
      rw [List.drop_eq_getElem_cons hk, List.flatMap_cons]
    _ = (wordToBytes payload[k])[j]? := List.getElem?_append_left (Nat.lt_of_lt_of_eq hj (length_wordToBytes _).symm)

/-- Settles O55: the count fits 16 bits, and word `k` stands behind the count and the words before it. -/
theorem frameLayout : Obligations.FrameLayout := by
  unfold Obligations.FrameLayout
  refine fun payload hp => ⟨?length, ⟨_, _, rfl, rfl, ?count⟩, fun k w h => ?word⟩
  case length =>
    rw [frame, List.length_append, length_flatMap_wordToBytes]
    rfl
  case count =>
    have hn : (BitVec.ofNat 16 payload.length).toNat = payload.length := by
      rw [BitVec.toNat_ofNat, Nat.mod_eq_of_lt (by omega)]
    rw [toNat_of_bytes16, hn]
  case word =>
    exact ⟨_, _, _, _, frame_word h (j := 0) (by decide), frame_word h (j := 1) (by decide),
      frame_word h (j := 2) (by decide), frame_word h (j := 3) (by decide), toNat_of_bytes32 w⟩

end Sys2Proof.Machine
end

section
/-! What the reference decoder answers (30_encoding.md R50, R52; 40_step_cycle.md R64). -/

namespace Sys2Proof

theorem decodeIn_eq_unknownOpcode_iff {G B : Type} {r : Registry G B} {w : Word} :
    decodeIn r w = .error .unknownOpcode ↔ r.length ≤ w.opcodeField.toNat := by
  constructor
  · intro h
    cases hr : r[w.opcodeField.toNat]? with
    | none => exact List.getElem?_eq_none_iff.mp hr
    | some row =>
      cases ha : row.accepts (Arg.ofByte w.arg0Field) (Arg.ofByte w.arg1Field) (Arg.ofByte w.arg2Field) with
      | false => cases (decodeIn_of_rejects hr ha).symm.trans h
      | true => cases (decodeIn_of_accepts hr ha).symm.trans h
  · exact fun h => decodeIn_of_unknown (List.getElem?_eq_none h)

/-- The reference decoder fails exactly as decoding over the reference registry does. -/
theorem decode_eq_error_iff {w : Word} {e : DecodeError} : decode w = .error e ↔ decodeIn registry w = .error e := by
  rw [decode]
  cases decodeIn registry w with
  | error k => simp [Except.map]
  | ok d => simp [Except.map]

/-- The unknown opcodes are those from 22 on, the number of rows of the reference registry (R52; D3). -/
theorem decode_eq_unknownOpcode_iff {w : Word} : decode w = .error .unknownOpcode ↔ 22 ≤ w.opcodeField.toNat := by
  rw [decode_eq_error_iff, decodeIn_eq_unknownOpcode_iff, registry_length]

/-- Settles O4: a row's validator checks its instruction's argument kinds, and the reference registry has 22 rows. -/
theorem decodedIsWellFormed : Obligations.DecodedIsWellFormed := by
  unfold Obligations.DecodedIsWellFormed
  exact ⟨fun _ _ => Instr.wellFormed_of_decode, fun _ => decode_eq_unknownOpcode_iff⟩

/-- Settles O1: the decoder is run on each of the ten words. -/
theorem knownWordsDecode : Obligations.KnownWordsDecode := by
  unfold Obligations.KnownWordsDecode
  exact ⟨rfl, rfl, rfl, rfl, rfl, rfl, rfl, rfl, rfl, rfl⟩

end Sys2Proof
end
